-- ==== Sys2Proof/Word.lean ====
section
/-! DEFINITION. The word types of the machine: every value is unsigned (00_scope.md R8). -/

namespace Sys2Proof

/-- 8 bits: a general register, a timer, a byte of memory (10_state.md R20, R29, R30). -/
abbrev Byte := BitVec 8

/-- 16 bits: an instruction word, `pc`, `I`, a stack entry (10_state.md R23, R25, R27). -/
abbrev Word := BitVec 16

/-- 4 bits: a register number, a key code, the height field `n` (30_encoding.md R73). -/
abbrev Nibble := BitVec 4

/-- 12 bits: the immediate `nnn` and the font base (30_encoding.md R73, 10_state.md R33). -/
abbrev Addr12 := BitVec 12

end Sys2Proof
end

