-- ==== Sys2Proof/Syntax.lean ====
section
/-! DEFINITION. The 35 instructions, one constructor per row of spec/opcode_table.json in the table's
order, named as the spec names them (30_encoding.md R76), with the fields the row gives (R74). -/

namespace Sys2Proof

inductive Instr where
  /-- row 1, `SYS nnn` (40_flow.md R100) -/
  | system (nnn : Addr12)
  /-- row 2, `CLS` (44_display.md R150) -/
  | clearScreen
  /-- row 3, `RET` (40_flow.md R101) -/
  | subroutineReturn
  /-- row 4, `JP nnn` (40_flow.md R102) -/
  | jump (nnn : Addr12)
  /-- row 5, `CALL nnn` (40_flow.md R103) -/
  | subroutineCall (nnn : Addr12)
  /-- row 6, `SE Vx, nn` (41_skips.md R110) -/
  | skipEqualValue (x : Nibble) (nn : Byte)
  /-- row 7, `SNE Vx, nn` (41_skips.md R111) -/
  | skipNotEqualValue (x : Nibble) (nn : Byte)
  /-- row 8, `SE Vx, Vy` (41_skips.md R112) -/
  | skipEqualRegister (x y : Nibble)
  /-- row 9, `LD Vx, nn` (42_alu.md R120) -/
  | setRegister (x : Nibble) (nn : Byte)
  /-- row 10, `ADD Vx, nn` (42_alu.md R121) -/
  | addValueRegister (x : Nibble) (nn : Byte)
  /-- row 11, `LD Vx, Vy` (42_alu.md R122) -/
  | aluSet (x y : Nibble)
  /-- row 12, `OR Vx, Vy` (42_alu.md R123) -/
  | aluOr (x y : Nibble)
  /-- row 13, `AND Vx, Vy` (42_alu.md R124) -/
  | aluAnd (x y : Nibble)
  /-- row 14, `XOR Vx, Vy` (42_alu.md R125) -/
  | aluXor (x y : Nibble)
  /-- row 15, `ADD Vx, Vy` (42_alu.md R126) -/
  | aluAdd (x y : Nibble)
  /-- row 16, `SUB Vx, Vy` (42_alu.md R127) -/
  | aluSubtract (x y : Nibble)
  /-- row 17, `SHR Vx, Vy` (42_alu.md R130) -/
  | aluShiftRight (x y : Nibble)
  /-- row 18, `SUBN Vx, Vy` (42_alu.md R128) -/
  | aluSubtractInverse (x y : Nibble)
  /-- row 19, `SHL Vx, Vy` (42_alu.md R131) -/
  | aluShiftLeft (x y : Nibble)
  /-- row 20, `SNE Vx, Vy` (41_skips.md R113) -/
  | skipNotEqualRegister (x y : Nibble)
  /-- row 21, `LD I, nnn` (43_index_memory.md R140) -/
  | setIndex (nnn : Addr12)
  /-- row 22, `JP V0, nnn` (40_flow.md R104); `x` is the top nibble of `nnn` in every encoded word (log 19) -/
  | jumpOffset (x : Nibble) (nnn : Addr12)
  /-- row 23, `RND Vx, nn` (45_timers_keys_random.md R164) -/
  | random (x : Nibble) (nn : Byte)
  /-- row 24, `DRW Vx, Vy, n` (44_display.md R151) -/
  | draw (x y n : Nibble)
  /-- row 25, `SKP Vx` (41_skips.md R114) -/
  | skipIfKeyPressed (x : Nibble)
  /-- row 26, `SKNP Vx` (41_skips.md R115) -/
  | skipIfKeyReleased (x : Nibble)
  /-- row 27, `LD Vx, DT` (45_timers_keys_random.md R160) -/
  | getDelayTimer (x : Nibble)
  /-- row 28, `LD Vx, K` (45_timers_keys_random.md R163) -/
  | getKey (x : Nibble)
  /-- row 29, `LD DT, Vx` (45_timers_keys_random.md R161) -/
  | setDelayTimer (x : Nibble)
  /-- row 30, `LD ST, Vx` (45_timers_keys_random.md R162) -/
  | setSoundTimer (x : Nibble)
  /-- row 31, `ADD I, Vx` (43_index_memory.md R141) -/
  | addToIndex (x : Nibble)
  /-- row 32, `LD F, Vx` (43_index_memory.md R142) -/
  | fontCharacter (x : Nibble)
  /-- row 33, `LD B, Vx` (43_index_memory.md R143) -/
  | decimalConversion (x : Nibble)
  /-- row 34, `LD [I], Vx` (43_index_memory.md R144) -/
  | storeRegisters (x : Nibble)
  /-- row 35, `LD Vx, [I]` (43_index_memory.md R145) -/
  | loadRegisters (x : Nibble)
  deriving DecidableEq, Repr

/-- What the decoder answers for a word: an instruction of the table, or one of the two fallback values
that fault only when executed (30_encoding.md R77, R78; 42_alu.md R132). Both carry the whole word. -/
inductive Decoded where
  | instr (i : Instr)
  /-- `Unsupported(op)` -/
  | unsupported (op : Word)
  /-- `Arithmetic(x, y, Unknown)`: family 8 with a low nibble that names no operator -/
  | arithmeticUnknown (x y : Nibble) (op : Word)
  deriving DecidableEq, Repr

end Sys2Proof
end

