-- ==== Sys2Proof/WellFormed.lean ====
section
/-! DEFINITION. Which instruction terms some word encodes. The field types leave only two conditions:
`System` is every family-0 word BUT the two fixed ones (30_encoding.md R80), and the `x` of `JumpOffset`
is the top nibble of its `nnn` (R73, 90_conflicts.md C7). -/

namespace Sys2Proof

/-- `x` of a word whose low twelve bits are `nnn` (30_encoding.md R73). -/
def topNibble (nnn : Addr12) : Nibble := nnn.extractLsb' 8 4

/-- The term is the decoding of some word. -/
def Instr.wf : Instr → Bool
  | .system nnn => nnn ≠ 0x0E0 && nnn ≠ 0x0EE
  | .clearScreen => true
  | .subroutineReturn => true
  | .jump _ => true
  | .subroutineCall _ => true
  | .skipEqualValue _ _ => true
  | .skipNotEqualValue _ _ => true
  | .skipEqualRegister _ _ => true
  | .setRegister _ _ => true
  | .addValueRegister _ _ => true
  | .aluSet _ _ => true
  | .aluOr _ _ => true
  | .aluAnd _ _ => true
  | .aluXor _ _ => true
  | .aluAdd _ _ => true
  | .aluSubtract _ _ => true
  | .aluShiftRight _ _ => true
  | .aluSubtractInverse _ _ => true
  | .aluShiftLeft _ _ => true
  | .skipNotEqualRegister _ _ => true
  | .setIndex _ => true
  | .jumpOffset x nnn => x == topNibble nnn
  | .random _ _ => true
  | .draw _ _ _ => true
  | .skipIfKeyPressed _ => true
  | .skipIfKeyReleased _ => true
  | .getDelayTimer _ => true
  | .getKey _ => true
  | .setDelayTimer _ => true
  | .setSoundTimer _ => true
  | .addToIndex _ => true
  | .fontCharacter _ => true
  | .decimalConversion _ => true
  | .storeRegisters _ => true
  | .loadRegisters _ => true

end Sys2Proof
end

