-- ==== Sys2Proof/Decode.lean ====
section
/-! DEFINITION. The decoder (30_encoding.md R72, R73, R77, R78), the opcode table's mask and match of each
row (R76), and the encoder written from the formats (R74). The bit patterns are the standard table the
spec itself takes from general knowledge (decision D2, log 12). -/

namespace Sys2Proof

/-! ## Fields (R73) -/

def fieldF (op : Word) : Nibble := op.extractLsb' 12 4
def fieldX (op : Word) : Nibble := op.extractLsb' 8 4
def fieldY (op : Word) : Nibble := op.extractLsb' 4 4
def fieldN (op : Word) : Nibble := op.extractLsb' 0 4
def fieldNN (op : Word) : Byte := op.extractLsb' 0 8
def fieldNNN (op : Word) : Addr12 := op.extractLsb' 0 12

/-! ## Decode (R77) -/

/-- Family 0: the two fixed words, and `System` for every other (R80, decision D3). -/
def decodeFamily0 (op : Word) : Decoded :=
  if op = 0x00E0 then .instr .clearScreen
  else if op = 0x00EE then .instr .subroutineReturn
  else .instr (.system (fieldNNN op))

/-- Family 8: the ALU operator is the low nibble (42_alu.md section 3). -/
def decodeFamily8 (op : Word) : Decoded :=
  match (fieldN op).toNat with
  | 0x0 => .instr (.aluSet (fieldX op) (fieldY op))
  | 0x1 => .instr (.aluOr (fieldX op) (fieldY op))
  | 0x2 => .instr (.aluAnd (fieldX op) (fieldY op))
  | 0x3 => .instr (.aluXor (fieldX op) (fieldY op))
  | 0x4 => .instr (.aluAdd (fieldX op) (fieldY op))
  | 0x5 => .instr (.aluSubtract (fieldX op) (fieldY op))
  | 0x6 => .instr (.aluShiftRight (fieldX op) (fieldY op))
  | 0x7 => .instr (.aluSubtractInverse (fieldX op) (fieldY op))
  | 0xE => .instr (.aluShiftLeft (fieldX op) (fieldY op))
  | _ => .arithmeticUnknown (fieldX op) (fieldY op) op

/-- Family E: the key skips, by the low byte. -/
def decodeFamilyE (op : Word) : Decoded :=
  if fieldNN op = 0x9E then .instr (.skipIfKeyPressed (fieldX op))
  else if fieldNN op = 0xA1 then .instr (.skipIfKeyReleased (fieldX op))
  else .unsupported op

/-- Family F: nine instructions, by the low byte. -/
def decodeFamilyF (op : Word) : Decoded :=
  match (fieldNN op).toNat with
  | 0x07 => .instr (.getDelayTimer (fieldX op))
  | 0x0A => .instr (.getKey (fieldX op))
  | 0x15 => .instr (.setDelayTimer (fieldX op))
  | 0x18 => .instr (.setSoundTimer (fieldX op))
  | 0x1E => .instr (.addToIndex (fieldX op))
  | 0x29 => .instr (.fontCharacter (fieldX op))
  | 0x33 => .instr (.decimalConversion (fieldX op))
  | 0x55 => .instr (.storeRegisters (fieldX op))
  | 0x65 => .instr (.loadRegisters (fieldX op))
  | _ => .unsupported op

/-- `Decode(op)`: by the top nibble, then by what its family needs. The last arm is family F, the only
value of four bits that is left. -/
def decode (op : Word) : Decoded :=
  match (fieldF op).toNat with
  | 0x0 => decodeFamily0 op
  | 0x1 => .instr (.jump (fieldNNN op))
  | 0x2 => .instr (.subroutineCall (fieldNNN op))
  | 0x3 => .instr (.skipEqualValue (fieldX op) (fieldNN op))
  | 0x4 => .instr (.skipNotEqualValue (fieldX op) (fieldNN op))
  | 0x5 => if fieldN op = 0 then .instr (.skipEqualRegister (fieldX op) (fieldY op)) else .unsupported op
  | 0x6 => .instr (.setRegister (fieldX op) (fieldNN op))
  | 0x7 => .instr (.addValueRegister (fieldX op) (fieldNN op))
  | 0x8 => decodeFamily8 op
  | 0x9 => if fieldN op = 0 then .instr (.skipNotEqualRegister (fieldX op) (fieldY op)) else .unsupported op
  | 0xA => .instr (.setIndex (fieldNNN op))
  | 0xB => .instr (.jumpOffset (fieldX op) (fieldNNN op))
  | 0xC => .instr (.random (fieldX op) (fieldNN op))
  | 0xD => .instr (.draw (fieldX op) (fieldY op) (fieldN op))
  | 0xE => decodeFamilyE op
  | _ => decodeFamilyF op

/-- The two bytes of an instruction, the one at the lower address first: it is the high byte
(20_memory.md R54, R55). -/
def wordOfBytes (hi lo : Byte) : Word := hi ++ lo

/-- The decoder over the two fetched bytes (30_encoding.md R78). -/
def decodeBytes (hi lo : Byte) : Decoded := decode (wordOfBytes hi lo)

/-- The high byte of a word: bits 15 to 8, stored at the lower address (20_memory.md R55). -/
def highByte (op : Word) : Byte := op.extractLsb' 8 8

/-- The low byte of a word: bits 7 to 0, stored at the higher address. -/
def lowByte (op : Word) : Byte := op.extractLsb' 0 8

/-! ## Encode (R74) -/

/-- Format NNN. -/
def wordNNN (f : Nibble) (nnn : Addr12) : Word := f ++ nnn

/-- Formats XNN and XKK: `nn` is an immediate, or fixed. -/
def wordXNN (f x : Nibble) (nn : Byte) : Word := f ++ x ++ nn

/-- Formats XYN and XYK: `n` is an immediate, or the fixed sub-opcode. -/
def wordXYN (f x y n : Nibble) : Word := f ++ x ++ y ++ n

/-- The word of a well-formed instruction (30_encoding.md R74, R76). -/
def encode : Instr → Word
  | .system nnn => wordNNN 0x0 nnn
  | .clearScreen => 0x00E0
  | .subroutineReturn => 0x00EE
  | .jump nnn => wordNNN 0x1 nnn
  | .subroutineCall nnn => wordNNN 0x2 nnn
  | .skipEqualValue x nn => wordXNN 0x3 x nn
  | .skipNotEqualValue x nn => wordXNN 0x4 x nn
  | .skipEqualRegister x y => wordXYN 0x5 x y 0x0
  | .setRegister x nn => wordXNN 0x6 x nn
  | .addValueRegister x nn => wordXNN 0x7 x nn
  | .aluSet x y => wordXYN 0x8 x y 0x0
  | .aluOr x y => wordXYN 0x8 x y 0x1
  | .aluAnd x y => wordXYN 0x8 x y 0x2
  | .aluXor x y => wordXYN 0x8 x y 0x3
  | .aluAdd x y => wordXYN 0x8 x y 0x4
  | .aluSubtract x y => wordXYN 0x8 x y 0x5
  | .aluShiftRight x y => wordXYN 0x8 x y 0x6
  | .aluSubtractInverse x y => wordXYN 0x8 x y 0x7
  | .aluShiftLeft x y => wordXYN 0x8 x y 0xE
  | .skipNotEqualRegister x y => wordXYN 0x9 x y 0x0
  | .setIndex nnn => wordNNN 0xA nnn
  | .jumpOffset _ nnn => wordNNN 0xB nnn
  | .random x nn => wordXNN 0xC x nn
  | .draw x y n => wordXYN 0xD x y n
  | .skipIfKeyPressed x => wordXNN 0xE x 0x9E
  | .skipIfKeyReleased x => wordXNN 0xE x 0xA1
  | .getDelayTimer x => wordXNN 0xF x 0x07
  | .getKey x => wordXNN 0xF x 0x0A
  | .setDelayTimer x => wordXNN 0xF x 0x15
  | .setSoundTimer x => wordXNN 0xF x 0x18
  | .addToIndex x => wordXNN 0xF x 0x1E
  | .fontCharacter x => wordXNN 0xF x 0x29
  | .decimalConversion x => wordXNN 0xF x 0x33
  | .storeRegisters x => wordXNN 0xF x 0x55
  | .loadRegisters x => wordXNN 0xF x 0x65

/-! ## The opcode table's columns (R76) -/

/-- The row's `mask` and `match`: `op` belongs to the row when `op &&& mask = match`. -/
def tableRow : Instr → Word × Word
  | .system _ => (0xF000, 0x0000)
  | .clearScreen => (0xFFFF, 0x00E0)
  | .subroutineReturn => (0xFFFF, 0x00EE)
  | .jump _ => (0xF000, 0x1000)
  | .subroutineCall _ => (0xF000, 0x2000)
  | .skipEqualValue _ _ => (0xF000, 0x3000)
  | .skipNotEqualValue _ _ => (0xF000, 0x4000)
  | .skipEqualRegister _ _ => (0xF00F, 0x5000)
  | .setRegister _ _ => (0xF000, 0x6000)
  | .addValueRegister _ _ => (0xF000, 0x7000)
  | .aluSet _ _ => (0xF00F, 0x8000)
  | .aluOr _ _ => (0xF00F, 0x8001)
  | .aluAnd _ _ => (0xF00F, 0x8002)
  | .aluXor _ _ => (0xF00F, 0x8003)
  | .aluAdd _ _ => (0xF00F, 0x8004)
  | .aluSubtract _ _ => (0xF00F, 0x8005)
  | .aluShiftRight _ _ => (0xF00F, 0x8006)
  | .aluSubtractInverse _ _ => (0xF00F, 0x8007)
  | .aluShiftLeft _ _ => (0xF00F, 0x800E)
  | .skipNotEqualRegister _ _ => (0xF00F, 0x9000)
  | .setIndex _ => (0xF000, 0xA000)
  | .jumpOffset _ _ => (0xF000, 0xB000)
  | .random _ _ => (0xF000, 0xC000)
  | .draw _ _ _ => (0xF000, 0xD000)
  | .skipIfKeyPressed _ => (0xF0FF, 0xE09E)
  | .skipIfKeyReleased _ => (0xF0FF, 0xE0A1)
  | .getDelayTimer _ => (0xF0FF, 0xF007)
  | .getKey _ => (0xF0FF, 0xF00A)
  | .setDelayTimer _ => (0xF0FF, 0xF015)
  | .setSoundTimer _ => (0xF0FF, 0xF018)
  | .addToIndex _ => (0xF0FF, 0xF01E)
  | .fontCharacter _ => (0xF0FF, 0xF029)
  | .decimalConversion _ => (0xF0FF, 0xF033)
  | .storeRegisters _ => (0xF0FF, 0xF055)
  | .loadRegisters _ => (0xF0FF, 0xF065)

/-! ## The host's numbering of a table word -/

/-- The instruction word of a table row's bits: the table numbers the one 16-bit word from its least
significant bit; bits from `nbits` on are 0, and bits from 16 on belong to no instruction (R71, log 20). -/
def tableWord (nbits w : Nat) : Word := BitVec.ofNat 16 (w % 2 ^ nbits)

/-- The instruction the decoder reads from a table word laid out high byte first (20_memory.md R54);
`none` where the word is unsupported. -/
def decodeTableWord (nbits w : Nat) : Option Instr :=
  match decodeBytes (highByte (tableWord nbits w)) (lowByte (tableWord nbits w)) with
  | .instr i => some i
  | .unsupported _ => none
  | .arithmeticUnknown _ _ _ => none

end Sys2Proof
end

