-- ==== Sys2Proof/Config.lean ====
section
/-! DEFINITION. The configuration parameters (00_scope.md R6), when they are well formed (R7), and the
free values the spec leaves to the environment (R14). -/

namespace Sys2Proof

/-- The interpreter variant: it alters the shift source, the register of jump-with-offset and the index
after a block transfer, and nothing else (00_scope.md R6). -/
inductive Variant where
  | cosmacVip
  | chip48
  deriving DecidableEq, Repr

/-- The parameters of 00_scope.md R6, "supplied once at construction, immutable thereafter"; State holds them (log 27). -/
structure Config where
  /-- `VARIANT` -/
  variant : Variant
  /-- `FONT_BASE` -/
  fontBase : Addr12
  /-- `SCREEN_W` -/
  screenW : Nat
  /-- `SCREEN_H` -/
  screenH : Nat
  /-- `FONT_TABLE`: sixteen glyphs of five bytes (70_reset_and_hazards.md R192) -/
  fontTable : Vector Byte 80
  deriving DecidableEq, Repr

/-- `PROG_BASE`: where the program is loaded and starts (00_scope.md R5). -/
def progBase : Nat := 0x200

/-- `MEM_SIZE` (00_scope.md R5). -/
def memSize : Nat := 4096

/-- `ROM_MAX` = 4096 - 0x200 (00_scope.md R5). -/
def romMax : Nat := 3584

/-- `STACK_CAP` (00_scope.md R5). -/
def stackCap : Nat := 16

/-- The conditions of 00_scope.md R7 on a configuration and the ROM loaded with it, but for the ROM's
own length. -/
abbrev Config.WellFormed (c : Config) (romLen : Nat) : Prop :=
  c.fontBase.toNat + 80 ≤ memSize ∧
  (romLen = 0 ∨ c.fontBase.toNat + 80 ≤ progBase ∨ progBase + romLen ≤ c.fontBase.toNat) ∧
  1 ≤ c.screenW ∧ 1 ≤ c.screenH

/-- The customary glyphs, as 70_reset_and_hazards.md R192 prints them.
PRESUMED: the spec marks them as general knowledge (log 2). -/
def customaryFont : Vector Byte 80 :=
  #v[0xF0, 0x90, 0x90, 0x90, 0xF0,  0x20, 0x60, 0x20, 0x20, 0x70,
    0xF0, 0x10, 0xF0, 0x80, 0xF0,  0xF0, 0x10, 0xF0, 0x10, 0xF0,
    0x90, 0x90, 0xF0, 0x10, 0x10,  0xF0, 0x80, 0xF0, 0x10, 0xF0,
    0xF0, 0x80, 0xF0, 0x90, 0xF0,  0xF0, 0x10, 0x20, 0x40, 0x40,
    0xF0, 0x90, 0xF0, 0x90, 0xF0,  0xF0, 0x90, 0xF0, 0x10, 0xF0,
    0xF0, 0x90, 0xF0, 0x90, 0x90,  0xE0, 0x90, 0xE0, 0x90, 0xE0,
    0xF0, 0x80, 0x80, 0x80, 0xF0,  0xE0, 0x90, 0x90, 0x90, 0xE0,
    0xF0, 0x80, 0xF0, 0x80, 0xF0,  0xF0, 0x80, 0xF0, 0x80, 0x80]

/-- The configuration of `State.reset`: R6's defaults. DESIGN CHOICE: R6 states no default variant, and
this takes CosmacVip (log 1). -/
def Config.default : Config where
  variant := .cosmacVip
  fontBase := 0x050
  screenW := 64
  screenH := 32
  fontTable := customaryFont

/-- FREE VALUE: the byte the `k`-th draw of the random source gives, under no law
(00_scope.md R14 a; 45_timers_keys_random.md R164; log 5). -/
opaque Config.randomByte : Nat → Byte

/-- FREE VALUE: which of several pressed keys the `k`-th draw picks, under no law
(00_scope.md R14 b; 45_timers_keys_random.md R163; log 6). -/
opaque Config.keyChoice : Nat → Nat

end Sys2Proof
end

