-- ==== Sys2Proof/Machine/State.lean ====
section
/-! DEFINITION. Every piece of state the spec gives the machine (10_state.md), its faults
(60_exceptions.md section 1), the reasons the model refuses, and the state after reset (R41). -/

namespace Sys2Proof.Machine

/-- The five faults (60_exceptions.md R170 to R174) with their diagnostic payload. A step TAKES its fault: it
answers a next state with `faultStatus` set (R34, R176; log 4), so `Host.Outcome.fault` is never answered.
Taking them is safe as to the step that faults and the ones after it; reading other fields of a faulted
state is what R177 warns against. -/
inductive Fault where
  /-- R170, code 1: raised by a fetch, `Draw`, `DecimalConversion`, `StoreRegisters` and `LoadRegisters` at an
  address above 4095. Safe: D7 errs toward a fault. -/
  | invalidMemoryAddress (addr : Nat)
  /-- R171, code 2: raised by `SubroutineCall` on a stack of 16 entries. Safe: the source's own fault. -/
  | stackOverflow
  /-- R172, code 3: raised by `SubroutineReturn` on an empty stack. Safe: the source's own fault. -/
  | stackUnderflow
  /-- R173, code 4: raised by executing a word outside the 35 encodings. Safe: D4 errs toward a fault. -/
  | unsupportedInstruction (op : Word)
  /-- R174, code 5: raised by `SkipIfKey` on a register above 15. Safe: D13 errs toward a fault. -/
  | invalidKey (v : Byte)
  deriving DecidableEq, Repr

/-- The reasons the model gives no meaning. -/
inductive Refusal where
  /-- Raised by an arm of `exec` whose instruction has no meaning yet. Safe: nothing is proved of it. -/
  | notModelled (mnemonic : String)
  /-- Raised by the event `Reset` for a configuration that is not well formed (00_scope.md R7, 70 R190).
  Safe: such a machine is not started. -/
  | illFormedConfiguration
  /-- Raised by the event `Reset` for a ROM over 3584 bytes (70_reset_and_hazards.md R191).
  Safe: such a machine is not started. -/
  | romTooLong
  deriving DecidableEq, Repr

/-- Memory as the bytes that differ from the reset contents, addresses rising (20_memory.md R50; log 9). -/
abbrev Memory := List Host.Cell

/-- A pixel's column and row (00_scope.md R9). -/
abbrev Pixel := Nat × Nat

/-- The screen as the pixels that are on, in reading order (10_state.md R31; log 8). -/
abbrev Screen := List Pixel

structure State where
  /-- V0 to VF (10_state.md R20); VF is register 15 (R21) -/
  v : Vector Byte 16
  /-- the program counter (R23) -/
  pc : Word
  /-- the index register `I` (R25) -/
  i : Word
  /-- return addresses, the most recent first (R27; log 18) -/
  stack : List Word
  /-- the delay timer `DT` (R29) -/
  dt : Byte
  /-- the sound timer `ST` (R29) -/
  st : Byte
  /-- the 4096 bytes (R30) -/
  mem : Memory
  /-- the framebuffer (R31) -/
  screen : Screen
  /-- key[0] to key[15] (R32) -/
  keys : Vector Bool 16
  /-- `VARIANT`, `FONT_BASE`, `SCREEN_W`, `SCREEN_H` (R33) and `FONT_TABLE` (00_scope.md R6): set by `Reset` alone.
  DESIGN CHOICE: R6, R15 and R37 call these parameters of the machine, R33, R41 and R190 list all but `FONT_TABLE` among the
  state that `Reset` sets; the model holds the whole record in State (log 27). -/
  cfg : Config
  /-- the fault status (R34) -/
  faultStatus : Option Fault
  /-- the model's own field: how many free values were drawn so far (log 5) -/
  draws : Nat
  deriving DecidableEq, Repr

/-- The machine after `Reset` with the default configuration and an empty ROM (10_state.md R41). -/
def State.reset : State where
  v := Vector.replicate 16 0
  pc := 0x200
  i := 0
  stack := []
  dt := 0
  st := 0
  mem := []
  screen := []
  keys := Vector.replicate 16 false
  cfg := Config.default
  faultStatus := none
  draws := 0

end Sys2Proof.Machine
end

