-- ==== Sys2Proof/Machine/Ops.lean ====
section
/-! DEFINITION. The named operations over registers, memory, stack, screen and keypad; taking a fault and the
machine's only way out of one (60_exceptions.md R176, R180). -/

namespace Sys2Proof.Machine

/-! ## General registers (10_state.md R20) -/

/-- `V[r]` -/
def State.reg (s : State) (r : Nibble) : Byte := s.v[r.toNat]'r.isLt

/-- `V[r] <- b` -/
def State.setReg (s : State) (r : Nibble) (b : Byte) : State := { s with v := s.v.set r.toNat b r.isLt }

/-- The number of VF (R21). -/
def vf : Nibble := 15

/-! ## Control registers and timers -/

/-- `pc <- w` -/
def State.setPc (s : State) (w : Word) : State := { s with pc := w }

/-- The fetch advance, and the further advance of a taken skip (30_encoding.md R70; 41_skips.md R109). -/
def State.advance (s : State) : State := s.setPc (s.pc + 2)

/-- `I <- w` -/
def State.setIndex (s : State) (w : Word) : State := { s with i := w }

/-- `DT <- b` -/
def State.setDelay (s : State) (b : Byte) : State := { s with dt := b }

/-- `ST <- b` -/
def State.setSound (s : State) (b : Byte) : State := { s with st := b }

/-- One more free value has been used (log 5). -/
def State.countDraw (s : State) : State := { s with draws := s.draws + 1 }

/-! ## Faults (60_exceptions.md R176) -/

/-- `raise f`: the fault is recorded in the fault status, and nothing else is saved or changed: no handler, no
mode, no stack use. The step ends here, so this is its next state (log 4). -/
def State.raise (s : State) (f : Fault) : Host.Outcome State Fault Refusal :=
  .next { s with faultStatus := some f }

/-- The end of an instruction that may have faulted part-way: the writes made before the fault stand (R177). -/
def settle : Except (Fault × State) State → Host.Outcome State Fault Refusal
  | .ok t => .next t
  | .error (f, t) => t.raise f

/-- Executing a word that decodes to `Unsupported` or `Arithmetic(Unknown)` (R173; 42_alu.md R132). -/
def State.takeUnsupported (s : State) (op : Word) : Host.Outcome State Fault Refusal :=
  s.raise (.unsupportedInstruction op)

/-! ## Memory (20_memory.md) -/

/-- What an unlisted address reads as: the reset contents, the font table in its region and 0 elsewhere
(10_state.md R41, 20_memory.md R60; log 9). -/
def resetByte (c : Config) (a : Nat) : Byte :=
  if h : c.fontBase.toNat ≤ a ∧ a < c.fontBase.toNat + 80 then c.fontTable[a - c.fontBase.toNat]'(by omega) else 0

/-- The byte at an address. -/
def Memory.read (c : Config) : Memory → Nat → Byte
  | [], a => resetByte c a
  | (b, w) :: m, a => if a = b then w else Memory.read c m a

/-- Lists a byte at its place in the rising order. -/
def Memory.insert (a : Nat) (w : Byte) : Memory → Memory
  | [] => [(a, w)]
  | (b, x) :: m => if a < b then (a, w) :: (b, x) :: m else (b, x) :: Memory.insert a w m

/-- The byte at `a` becomes `w` and no other byte changes; a byte equal to the reset contents is not listed. -/
def Memory.write (c : Config) (m : Memory) (a : Nat) (w : Byte) : Memory :=
  if w = resetByte c a then m.filter (fun e => e.1 ≠ a) else Memory.insert a w (m.filter (fun e => e.1 ≠ a))

/-- The canonical form: addresses strictly rising and in range, no entry equal to the reset contents. -/
abbrev Memory.wf (c : Config) (m : Memory) : Prop :=
  m.Pairwise (fun p q => p.1 < q.1) ∧ ∀ e ∈ m, e.1 < memSize ∧ e.2 ≠ resetByte c e.1

/-- The byte stored at an address, without the bounds check. -/
def State.peek (s : State) (a : Nat) : Byte := Memory.read s.cfg s.mem a

/-- The state with the byte at an address replaced, without the bounds check. -/
def State.poke (s : State) (a : Nat) (w : Byte) : State := { s with mem := Memory.write s.cfg s.mem a w }

/-- `MemRead(a, 1)` (R52). -/
def State.readByte (s : State) (a : Nat) : Except Fault Byte :=
  if a < memSize then .ok (s.peek a) else .error (.invalidMemoryAddress a)

/-- `MemWrite(a, 1, w)` (R53). -/
def State.writeByte (s : State) (a : Nat) (w : Byte) : Except Fault State :=
  if a < memSize then .ok (s.poke a w) else .error (.invalidMemoryAddress a)

/-- `MemRead(pc, 2)`: the high byte, then the low byte, each checked (R54). -/
def State.fetch (s : State) : Except Fault Word :=
  match s.readByte s.pc.toNat with
  | .error f => .error f
  | .ok hi =>
    match s.readByte (s.pc.toNat + 1) with
    | .error f => .error f
    | .ok lo => .ok (wordOfBytes hi lo)

/-- `n` bytes from `a` up, all read before anything is done with them (44_display.md R151). -/
def State.readBytes (s : State) (a : Nat) : Nat → Except Fault (List Byte)
  | 0 => .ok []
  | n + 1 =>
    match s.readByte a with
    | .error f => .error f
    | .ok b =>
      match s.readBytes (a + 1) n with
      | .error f => .error f
      | .ok bs => .ok (b :: bs)

/-- Bytes written from `a` up in ascending order; a fault leaves the earlier ones written (60 R177). -/
def State.writeBytes (s : State) (a : Nat) : List Byte → Except (Fault × State) State
  | [] => .ok s
  | b :: bs =>
    match s.writeByte a b with
    | .error f => .error (f, s)
    | .ok t => t.writeBytes (a + 1) bs

/-- Registers loaded from `a` up in ascending order; a fault leaves the earlier ones loaded (60 R177). -/
def State.loadRegs (s : State) (a : Nat) : List Nibble → Except (Fault × State) State
  | [] => .ok s
  | r :: rs =>
    match s.readByte a with
    | .error f => .error (f, s)
    | .ok b => (s.setReg r b).loadRegs (a + 1) rs

/-- The instruction word `op` stored where the next fetch reads it, high byte first; nothing is stored where no
word can be fetched (log 20). -/
def State.storeWordAtPc (s : State) (op : Word) : State :=
  if s.pc.toNat + 1 < memSize then (s.poke s.pc.toNat (highByte op)).poke (s.pc.toNat + 1) (lowByte op) else s

/-! ## Stack (10_state.md R27) -/

/-- `push(stack, w)` -/
def State.push (s : State) (w : Word) : Except Fault State :=
  if s.stack.length < stackCap then .ok { s with stack := w :: s.stack } else .error .stackOverflow

/-- `pop(stack)`: the most recent entry and the state without it. -/
def State.pop (s : State) : Except Fault (Word × State) :=
  match s.stack with
  | [] => .error .stackUnderflow
  | w :: ws => .ok (w, { s with stack := ws })

/-! ## Keypad (10_state.md R32) -/

/-- `key[k]` -/
def State.key (s : State) (k : Nibble) : Bool := s.keys[k.toNat]'k.isLt

/-- `key[k] <- b`: the host's move alone (60_exceptions.md R183). -/
def State.setKey (s : State) (k : Nibble) (b : Bool) : State := { s with keys := s.keys.set k.toNat b k.isLt }

/-- The sixteen values of a nibble, in rising order. -/
def allNibbles : List Nibble := (List.range 16).map (BitVec.ofNat 4)

/-- The set of pressed keys, in rising order (45_timers_keys_random.md R163). -/
def State.pressedKeys (s : State) : List Nibble := allNibbles.filter s.key

/-- Any one of the pressed keys: the only one, or the one the free value picks (R163; log 6). -/
def chooseKey (d : Nat) : List Nibble → Option Nibble
  | [] => none
  | [k] => some k
  | k :: ks => some ((k :: ks).getD (Config.keyChoice d % (k :: ks).length) k)

/-! ## Screen (10_state.md R31, 44_display.md R152) -/

/-- Reading order: row by row, left to right. -/
abbrev Pixel.before (p q : Pixel) : Prop := p.2 < q.2 ∨ (p.2 = q.2 ∧ p.1 < q.1)

/-- Lists a pixel at its place in reading order. -/
def Screen.insert (p : Pixel) : Screen → Screen
  | [] => [p]
  | q :: l => if Pixel.before p q then p :: q :: l else q :: Screen.insert p l

/-- `pixel[p] <- pixel[p] ^ 1` -/
def Screen.toggle (p : Pixel) (l : Screen) : Screen :=
  if p ∈ l then l.filter (fun q => q ≠ p) else Screen.insert p l

/-- The canonical form: lit pixels in reading order, without repeats, all on the screen. -/
abbrev Screen.wf (c : Config) (l : Screen) : Prop :=
  l.Pairwise Pixel.before ∧ ∀ p ∈ l, p.1 < c.screenW ∧ p.2 < c.screenH

/-- `pixel[px][py]` = 1 -/
def State.pixel (s : State) (px py : Nat) : Bool := decide ((px, py) ∈ s.screen)

/-- One set sprite bit at `p`: off the screen it is not drawn; on it the pixel flips, and a pixel that was on is a
collision. -/
def drawPixel (w h : Nat) (p : Pixel) (acc : Screen × Bool) : Screen × Bool :=
  if p.1 < w ∧ p.2 < h then (Screen.toggle p acc.1, acc.2 || decide (p ∈ acc.1)) else acc

/-- Bit `c` of a sprite row counted from the left, the most significant bit (R152). -/
def spriteBit (b : Byte) (c : Nat) : Bool := b.getLsbD (7 - c)

/-- The columns `c` of one sprite row, at screen row `py`. -/
def drawColumns (w h x0 py : Nat) (b : Byte) : List Nat → Screen × Bool → Screen × Bool
  | [], acc => acc
  | c :: cs, acc =>
    drawColumns w h x0 py b cs (if spriteBit b c then drawPixel w h (x0 + c, py) acc else acc)

/-- `draw_sprite(x0, y0, bytes)`: row by row from `y0` down, eight columns each (R152). -/
def drawSprite (w h x0 y0 : Nat) : List Byte → Screen × Bool → Screen × Bool
  | [], acc => acc
  | b :: bs, acc => drawSprite w h x0 (y0 + 1) bs (drawColumns w h x0 y0 b (List.range 8) acc)

end Sys2Proof.Machine
end

