-- ==== Sys2Proof/Machine/Flags.lean ====
section
/-! DEFINITION. The flag VF: how each instruction computes it (10_state.md R22) and when it is written (R21). -/

namespace Sys2Proof.Machine

/-- A flag as the value of VF: 1 or 0. -/
def flagByte (b : Bool) : Byte := if b then 1 else 0

/-- `Add`: 1 if `a + b > 255` (42_alu.md R126). -/
def carryFlag (a b : Byte) : Bool := decide (a.toNat + b.toNat > 255)

/-- `Subtract`: 1 if `a >= b`, no borrow (42_alu.md R127). `SubtractInverse` takes them the other way (R128). -/
def noBorrowFlag (a b : Byte) : Bool := decide (b.toNat ≤ a.toNat)

/-- `ShiftRight`: bit 0 of the source (42_alu.md R130). -/
def rightShiftFlag (src : Byte) : Bool := src.getLsbD 0

/-- `ShiftLeft`: bit 7 of the source (42_alu.md R131). -/
def leftShiftFlag (src : Byte) : Bool := src.getLsbD 7

/-- `AddToIndex`: whether `I` crossed from at most 0xFFF to above it (43_index_memory.md R141). -/
def indexCrossed (old new : Word) : Bool := decide (old.toNat ≤ 0xFFF ∧ 0xFFF < new.toNat)

/-- VF written with a flag. -/
def State.setFlag (s : State) (b : Bool) : State := s.setReg vf (flagByte b)

/-- The destination, THEN the flag: with destination VF the flag is what stays (10_state.md R21). -/
def State.setRegFlag (s : State) (x : Nibble) (result : Byte) (flag : Bool) : State :=
  (s.setReg x result).setFlag flag

end Sys2Proof.Machine
end

