-- ==== Sys2Proof/Machine/Operands.lean ====
section
/-! DEFINITION. How operands and results are formed: immediates zero-extended (30_encoding.md R75), arithmetic exact
and then narrowed (42_alu.md R119), effective addresses never wrapped (20_memory.md R56), and the three choices the
variant makes (00_scope.md R6). -/

namespace Sys2Proof.Machine

/-- `nnn` as a 16-bit value (30_encoding.md R75). -/
def immediateWord (nnn : Addr12) : Word := nnn.setWidth 16

/-- `(a + b) mod 256` (42_alu.md R121, R126). -/
def addBytes (a b : Byte) : Byte := BitVec.ofNat 8 (a.toNat + b.toNat)

/-- `|a - b|`: the result of both subtractions (42_alu.md R127, R128). -/
def absDifference (a b : Byte) : Byte :=
  if b.toNat ≤ a.toNat then BitVec.ofNat 8 (a.toNat - b.toNat) else BitVec.ofNat 8 (b.toNat - a.toNat)

/-- `src div 2` (42_alu.md R130). -/
def halve (src : Byte) : Byte := src >>> 1

/-- `(src * 2) mod 256` (42_alu.md R131). -/
def double (src : Byte) : Byte := src <<< 1

/-- The shift source: Vy under CosmacVip, Vx under Chip48 (42_alu.md R129). -/
def State.shiftSource (s : State) (x y : Nibble) : Byte :=
  match s.cfg.variant with
  | .cosmacVip => s.reg y
  | .chip48 => s.reg x

/-- The register `JumpOffset` adds: V0 under CosmacVip, Vx under Chip48 (40_flow.md R104). -/
def State.jumpOffsetOperand (s : State) (x : Nibble) : Byte :=
  match s.cfg.variant with
  | .cosmacVip => s.reg 0
  | .chip48 => s.reg x

/-- The index after a block transfer of `x + 1` registers (43_index_memory.md R144, R145). -/
def State.advanceIndex (s : State) (x : Nibble) : State :=
  match s.cfg.variant with
  | .cosmacVip => s.setIndex (BitVec.ofNat 16 (s.i.toNat + x.toNat + 1))
  | .chip48 => s

/-- `nnn + V[..]`, at most 0x10FE and not reduced to 12 bits (40_flow.md R104). -/
def jumpOffsetTarget (nnn : Addr12) (b : Byte) : Word := BitVec.ofNat 16 (nnn.toNat + b.toNat)

/-- `(I + v) mod 65536` (43_index_memory.md R141). -/
def addToWord (w : Word) (b : Byte) : Word := BitVec.ofNat 16 (w.toNat + b.toNat)

/-- `FONT_BASE + (v & 0x0F) * 5` (43_index_memory.md R142). -/
def fontAddress (c : Config) (b : Byte) : Word := BitVec.ofNat 16 (c.fontBase.toNat + b.toNat % 16 * 5)

/-- Hundreds, tens and units (43_index_memory.md R143). -/
def decimalDigits (b : Byte) : List Byte :=
  [BitVec.ofNat 8 (b.toNat / 100), BitVec.ofNat 8 (b.toNat / 10 % 10), BitVec.ofNat 8 (b.toNat % 10)]

/-- The numbers of V0 to Vx, ascending (43_index_memory.md R144). -/
def registersUpTo (x : Nibble) : List Nibble := (List.range (x.toNat + 1)).map (BitVec.ofNat 4)

/-- A key code as the value of a register (45_timers_keys_random.md R163). -/
def keyByte (k : Nibble) : Byte := k.setWidth 8

/-- The key a register value names: none above 15 (41_skips.md R114). -/
def keyOf (b : Byte) : Option Nibble := if b.toNat ≤ 15 then some (BitVec.ofNat 4 b.toNat) else none

/-- The further advance of a skip whose condition holds (41_skips.md R109). -/
def State.skipIf (s : State) (c : Bool) : State := if c then s.advance else s

end Sys2Proof.Machine
end

