-- ==== Sys2Proof/Machine/Alu.lean ====
section
/-! DEFINITION. Register set, immediate add and the nine ALU operators (42_alu.md). Operands are read from the state
before any write, and VF is written last (10_state.md R21). -/

namespace Sys2Proof.Machine

/-- `SetRegister(x, nn)` (R120). -/
def execSetRegister (x : Nibble) (nn : Byte) (s : State) : Host.Outcome State Fault Refusal := .next (s.setReg x nn)

/-- `AddValueRegister(x, nn)`: no flag (R121). -/
def execAddValueRegister (x : Nibble) (nn : Byte) (s : State) : Host.Outcome State Fault Refusal :=
  .next (s.setReg x (addBytes (s.reg x) nn))

/-- `Arithmetic(x, y, Set)` (R122). -/
def execAluSet (x y : Nibble) (s : State) : Host.Outcome State Fault Refusal := .next (s.setReg x (s.reg y))

/-- `Arithmetic(x, y, Or)`: VF is not reset (R123). -/
def execAluOr (x y : Nibble) (s : State) : Host.Outcome State Fault Refusal :=
  .next (s.setReg x (s.reg x ||| s.reg y))

/-- `Arithmetic(x, y, And)` (R124). -/
def execAluAnd (x y : Nibble) (s : State) : Host.Outcome State Fault Refusal :=
  .next (s.setReg x (s.reg x &&& s.reg y))

/-- `Arithmetic(x, y, Xor)` (R125). -/
def execAluXor (x y : Nibble) (s : State) : Host.Outcome State Fault Refusal :=
  .next (s.setReg x (s.reg x ^^^ s.reg y))

/-- `Arithmetic(x, y, Add)` (R126). -/
def execAluAdd (x y : Nibble) (s : State) : Host.Outcome State Fault Refusal :=
  .next (s.setRegFlag x (addBytes (s.reg x) (s.reg y)) (carryFlag (s.reg x) (s.reg y)))

/-- `Arithmetic(x, y, Subtract)`: the absolute difference (R127). -/
def execAluSubtract (x y : Nibble) (s : State) : Host.Outcome State Fault Refusal :=
  .next (s.setRegFlag x (absDifference (s.reg x) (s.reg y)) (noBorrowFlag (s.reg x) (s.reg y)))

/-- `Arithmetic(x, y, SubtractInverse)`: the operands of the comparison swapped (R128). -/
def execAluSubtractInverse (x y : Nibble) (s : State) : Host.Outcome State Fault Refusal :=
  .next (s.setRegFlag x (absDifference (s.reg y) (s.reg x)) (noBorrowFlag (s.reg y) (s.reg x)))

/-- `Arithmetic(x, y, ShiftRight)` (R129, R130). -/
def execAluShiftRight (x y : Nibble) (s : State) : Host.Outcome State Fault Refusal :=
  .next (s.setRegFlag x (halve (s.shiftSource x y)) (rightShiftFlag (s.shiftSource x y)))

/-- `Arithmetic(x, y, ShiftLeft)` (R129, R131). -/
def execAluShiftLeft (x y : Nibble) (s : State) : Host.Outcome State Fault Refusal :=
  .next (s.setRegFlag x (double (s.shiftSource x y)) (leftShiftFlag (s.shiftSource x y)))

end Sys2Proof.Machine
end

