-- ==== Sys2Proof/Machine/Display.lean ====
section
/-! DEFINITION. The display instructions (44_display.md). -/

namespace Sys2Proof.Machine

/-- `ClearScreen`: every pixel off, VF untouched (R150). -/
def execClearScreen (s : State) : Host.Outcome State Fault Refusal := .next { s with screen := [] }

/-- The sprite `bytes` drawn with its origin at `(vx mod W, vy mod H)`, and VF written with the collision flag (R151). -/
def State.drawAt (s : State) (vx vy : Byte) (bytes : List Byte) : State :=
  let drawn := drawSprite s.cfg.screenW s.cfg.screenH (vx.toNat % s.cfg.screenW) (vy.toNat % s.cfg.screenH) bytes
    (s.screen, false)
  State.setFlag { s with screen := drawn.1 } drawn.2

/-- `Draw(x, y, n)`: all `n` bytes are read first, so a fault leaves the screen and VF as they were (R151). -/
def execDraw (x y n : Nibble) (s : State) : Host.Outcome State Fault Refusal :=
  match s.readBytes s.i.toNat n.toNat with
  | .error f => s.raise f
  | .ok bytes => .next (s.drawAt (s.reg x) (s.reg y) bytes)

end Sys2Proof.Machine
end

