-- ==== Sys2Proof/Machine/Flow.lean ====
section
/-! DEFINITION. The system no-op and the control transfers (40_flow.md). Every meaning is entered with `pc` already
at the address after the instruction (00_scope.md R12). -/

namespace Sys2Proof.Machine

/-- `System(nnn)`: nothing beyond the fetch advance (R100). -/
def execSystem (_nnn : Addr12) (s : State) : Host.Outcome State Fault Refusal := .next s

/-- `SubroutineReturn` (R101). -/
def execSubroutineReturn (s : State) : Host.Outcome State Fault Refusal :=
  match s.pop with
  | .error f => s.raise f
  | .ok (w, t) => .next (t.setPc w)

/-- `Jump(nnn)` (R102). -/
def execJump (nnn : Addr12) (s : State) : Host.Outcome State Fault Refusal := .next (s.setPc (immediateWord nnn))

/-- `SubroutineCall(nnn)`: the address pushed is the next instruction's (R103). -/
def execSubroutineCall (nnn : Addr12) (s : State) : Host.Outcome State Fault Refusal :=
  match s.push s.pc with
  | .error f => s.raise f
  | .ok t => .next (t.setPc (immediateWord nnn))

/-- `JumpOffset(x, nnn)` (R104). -/
def execJumpOffset (x : Nibble) (nnn : Addr12) (s : State) : Host.Outcome State Fault Refusal :=
  .next (s.setPc (jumpOffsetTarget nnn (s.jumpOffsetOperand x)))

end Sys2Proof.Machine
end

