-- ==== Sys2Proof/Machine/IndexMemory.lean ====
section
/-! DEFINITION. The index register and the memory transfers (43_index_memory.md). The only addressing mode is index plus
element number, formed over unbounded integers (R139). -/

namespace Sys2Proof.Machine

/-- `SetIndex(nnn)` (R140). -/
def execSetIndex (nnn : Addr12) (s : State) : Host.Outcome State Fault Refusal :=
  .next (s.setIndex (immediateWord nnn))

/-- `AddToIndex(x)`: VF is set on the crossing and otherwise not written (R141; log 24). -/
def execAddToIndex (x : Nibble) (s : State) : Host.Outcome State Fault Refusal :=
  let new := addToWord s.i (s.reg x)
  .next (if indexCrossed s.i new then (s.setIndex new).setFlag true else s.setIndex new)

/-- `FontCharacter(x)` (R142). -/
def execFontCharacter (x : Nibble) (s : State) : Host.Outcome State Fault Refusal :=
  .next (s.setIndex (fontAddress s.cfg (s.reg x)))

/-- `DecimalConversion(x)`: three bytes at `I`; `I` keeps its value (R143). -/
def execDecimalConversion (x : Nibble) (s : State) : Host.Outcome State Fault Refusal :=
  settle (s.writeBytes s.i.toNat (decimalDigits (s.reg x)))

/-- `StoreRegisters(x)`: V0 to Vx at `I` up; then the index as the variant has it (R144). -/
def execStoreRegisters (x : Nibble) (s : State) : Host.Outcome State Fault Refusal :=
  settle ((s.writeBytes s.i.toNat ((registersUpTo x).map s.reg)).map (fun t => t.advanceIndex x))

/-- `LoadRegisters(x)`: V0 to Vx from `I` up; then the index as the variant has it (R145). -/
def execLoadRegisters (x : Nibble) (s : State) : Host.Outcome State Fault Refusal :=
  settle ((s.loadRegs s.i.toNat (registersUpTo x)).map (fun t => t.advanceIndex x))

end Sys2Proof.Machine
end

