-- ==== Sys2Proof/Machine/Skips.lean ====
section
/-! DEFINITION. The conditional skips (41_skips.md): a taken skip advances `pc` by a further 2 (R109). -/

namespace Sys2Proof.Machine

/-- `SkipEqualValue(x, nn, skip_equal = true)` (R110). -/
def execSkipEqualValue (x : Nibble) (nn : Byte) (s : State) : Host.Outcome State Fault Refusal :=
  .next (s.skipIf (s.reg x == nn))

/-- `SkipEqualValue(x, nn, skip_equal = false)` (R111). -/
def execSkipNotEqualValue (x : Nibble) (nn : Byte) (s : State) : Host.Outcome State Fault Refusal :=
  .next (s.skipIf (s.reg x != nn))

/-- `SkipEqualRegister(x, y, skip_equal = true)` (R112). -/
def execSkipEqualRegister (x y : Nibble) (s : State) : Host.Outcome State Fault Refusal :=
  .next (s.skipIf (s.reg x == s.reg y))

/-- `SkipEqualRegister(x, y, skip_equal = false)` (R113). -/
def execSkipNotEqualRegister (x y : Nibble) (s : State) : Host.Outcome State Fault Refusal :=
  .next (s.skipIf (s.reg x != s.reg y))

/-- `SkipIfKey(x, pressed)`: skips when the key that V[x] names is in the wanted state; a value above 15 names no key
and raises `InvalidKey` (R114, R115). -/
def State.skipIfKey (s : State) (x : Nibble) (pressed : Bool) : Host.Outcome State Fault Refusal :=
  match keyOf (s.reg x) with
  | none => s.raise (.invalidKey (s.reg x))
  | some k => .next (s.skipIf (s.key k == pressed))

/-- `SkipIfKey(x, pressed = true)` (R114). -/
def execSkipIfKeyPressed (x : Nibble) (s : State) : Host.Outcome State Fault Refusal := s.skipIfKey x true

/-- `SkipIfKey(x, pressed = false)` (R115). -/
def execSkipIfKeyReleased (x : Nibble) (s : State) : Host.Outcome State Fault Refusal := s.skipIfKey x false

end Sys2Proof.Machine
end

