-- ==== Sys2Proof/Machine/TimersKeysRandom.lean ====
section
/-! DEFINITION. The timer moves, the key wait and the random byte (45_timers_keys_random.md). -/

namespace Sys2Proof.Machine

/-- `GetDelayTimer(x)` (R160). -/
def execGetDelayTimer (x : Nibble) (s : State) : Host.Outcome State Fault Refusal := .next (s.setReg x s.dt)

/-- `SetDelayTimer(x)` (R161). -/
def execSetDelayTimer (x : Nibble) (s : State) : Host.Outcome State Fault Refusal := .next (s.setDelay (s.reg x))

/-- `SetSoundTimer(x)` (R162). -/
def execSetSoundTimer (x : Nibble) (s : State) : Host.Outcome State Fault Refusal := .next (s.setSound (s.reg x))

/-- `GetKey(x)`: with no key down, `pc` goes back to this instruction; else V[x] is any one pressed key
(R163; log 6, log 16). -/
def execGetKey (x : Nibble) (s : State) : Host.Outcome State Fault Refusal :=
  match chooseKey s.draws s.pressedKeys with
  | none => .next (s.setPc (s.pc - 2))
  | some k => .next (s.setReg x (keyByte k)).countDraw

/-- `Random(x, nn)`: a free byte under the mask (R164; log 5). -/
def execRandom (x : Nibble) (nn : Byte) (s : State) : Host.Outcome State Fault Refusal :=
  .next (s.setReg x (Config.randomByte s.draws &&& nn)).countDraw

end Sys2Proof.Machine
end

