-- ==== Sys2Proof/Machine/Dispatch.lean ====
section
/-! DEFINITION. One arm per instruction: the call of its meaning (30_encoding.md R70, R76). -/

namespace Sys2Proof.Machine

def exec (i : Instr) (s : State) : Host.Outcome State Fault Refusal :=
  match i with
  | .system nnn => Sys2Proof.Machine.execSystem nnn s
  | .clearScreen => Sys2Proof.Machine.execClearScreen s
  | .subroutineReturn => Sys2Proof.Machine.execSubroutineReturn s
  | .jump nnn => Sys2Proof.Machine.execJump nnn s
  | .subroutineCall nnn => Sys2Proof.Machine.execSubroutineCall nnn s
  | .skipEqualValue x nn => Sys2Proof.Machine.execSkipEqualValue x nn s
  | .skipNotEqualValue x nn => Sys2Proof.Machine.execSkipNotEqualValue x nn s
  | .skipEqualRegister x y => Sys2Proof.Machine.execSkipEqualRegister x y s
  | .setRegister x nn => Sys2Proof.Machine.execSetRegister x nn s
  | .addValueRegister x nn => Sys2Proof.Machine.execAddValueRegister x nn s
  | .aluSet x y => Sys2Proof.Machine.execAluSet x y s
  | .aluOr x y => Sys2Proof.Machine.execAluOr x y s
  | .aluAnd x y => Sys2Proof.Machine.execAluAnd x y s
  | .aluXor x y => Sys2Proof.Machine.execAluXor x y s
  | .aluAdd x y => Sys2Proof.Machine.execAluAdd x y s
  | .aluSubtract x y => Sys2Proof.Machine.execAluSubtract x y s
  | .aluShiftRight x y => Sys2Proof.Machine.execAluShiftRight x y s
  | .aluSubtractInverse x y => Sys2Proof.Machine.execAluSubtractInverse x y s
  | .aluShiftLeft x y => Sys2Proof.Machine.execAluShiftLeft x y s
  | .skipNotEqualRegister x y => Sys2Proof.Machine.execSkipNotEqualRegister x y s
  | .setIndex nnn => Sys2Proof.Machine.execSetIndex nnn s
  | .jumpOffset x nnn => Sys2Proof.Machine.execJumpOffset x nnn s
  | .random x nn => Sys2Proof.Machine.execRandom x nn s
  | .draw x y n => Sys2Proof.Machine.execDraw x y n s
  | .skipIfKeyPressed x => Sys2Proof.Machine.execSkipIfKeyPressed x s
  | .skipIfKeyReleased x => Sys2Proof.Machine.execSkipIfKeyReleased x s
  | .getDelayTimer x => Sys2Proof.Machine.execGetDelayTimer x s
  | .getKey x => Sys2Proof.Machine.execGetKey x s
  | .setDelayTimer x => Sys2Proof.Machine.execSetDelayTimer x s
  | .setSoundTimer x => Sys2Proof.Machine.execSetSoundTimer x s
  | .addToIndex x => Sys2Proof.Machine.execAddToIndex x s
  | .fontCharacter x => Sys2Proof.Machine.execFontCharacter x s
  | .decimalConversion x => Sys2Proof.Machine.execDecimalConversion x s
  | .storeRegisters x => Sys2Proof.Machine.execStoreRegisters x s
  | .loadRegisters x => Sys2Proof.Machine.execLoadRegisters x s

end Sys2Proof.Machine
end

