-- ==== Sys2Proof/Machine/Step.lean ====
section
/-! DEFINITION. The event `Step`: one fetch-decode-execute cycle (30_encoding.md R70). -/

namespace Sys2Proof.Machine

/-- `Execute(Decode(op))`, entered with `pc` already advanced; an unsupported word faults here and not at decode (R78). -/
def execWord (op : Word) (s : State) : Host.Outcome State Fault Refusal :=
  match decode op with
  | .instr i => exec i s
  | .unsupported w => s.takeUnsupported w
  | .arithmeticUnknown _ _ w => s.takeUnsupported w

/-- `Step` (R70): a faulted machine does nothing (60_exceptions.md R176); a fetch that faults leaves `pc` where it was. -/
def step (s : State) : Host.Outcome State Fault Refusal :=
  match s.faultStatus with
  | some _ => .next s
  | none =>
    match s.fetch with
    | .error f => s.raise f
    | .ok op => execWord op s.advance

/-- `s` with the table's word stored where the next fetch reads it (log 10, log 20). -/
def State.withFetchWord (s : State) (nbits w : Nat) : State := s.storeWordAtPc (tableWord nbits w)

end Sys2Proof.Machine
end

