-- ==== Sys2Proof/Machine/Events.lean ====
section
/-! DEFINITION. The five events that change the machine's state (00_scope.md R13) and the outputs the host reads
(60_exceptions.md R184, R185). `Step` is `step`; the host delivers the others between steps, in any order and number
(70_reset_and_hazards.md R194, R203; log 10). -/

namespace Sys2Proof.Machine

/-- The events, each atomic, delivered one at a time (00_scope.md R13). -/
inductive Event where
  | reset (config : Config) (rom : List Byte)
  | step
  | tick
  | keyDown (k : Nibble)
  | keyUp (k : Nibble)
  deriving DecidableEq, Repr

/-- A timer one tick later: down by one, never below 0 (60_exceptions.md R181). -/
def tickTimer (b : Byte) : Byte := if 0 < b.toNat then b - 1 else b

/-- `Tick`: both timers (R181). -/
def State.tick (s : State) : State := (s.setDelay (tickTimer s.dt)).setSound (tickTimer s.st)

/-- Bytes placed from `a` up over the reset contents. -/
def loadBytes (c : Config) (m : Memory) (a : Nat) : List Byte → Memory
  | [] => m
  | b :: bs => loadBytes c (Memory.write c m a b) (a + 1) bs

/-- The state `Reset(config, ROM)` builds (70_reset_and_hazards.md R190, R191; 10_state.md R41). The font table needs no
listing: it is what its region reads as while nothing else is written there (log 9). The count of draws goes on, so that
a draw after a reset is not one made before it (log 5). -/
def resetState (c : Config) (rom : List Byte) (draws : Nat) : State :=
  { State.reset with cfg := c, mem := loadBytes c [] progBase rom, draws := draws }

/-- One event. `Reset` refuses an ill-formed configuration and an over-long ROM (70_reset_and_hazards.md R190, R191). -/
def Event.deliver (e : Event) (s : State) : Host.Outcome State Fault Refusal :=
  match e with
  | .reset c rom =>
    if romMax < rom.length then .refused .romTooLong
    else if c.WellFormed rom.length then .next (resetState c rom s.draws)
    else .refused .illFormedConfiguration
  | .step => Sys2Proof.Machine.step s
  | .tick => .next s.tick
  | .keyDown k => .next (s.setKey k true)
  | .keyUp k => .next (s.setKey k false)

/-- Events in the order given, up to the first refusal: every interleaving is some list (R203). -/
def deliverAll : List Event → State → Host.Outcome State Fault Refusal
  | [], s => .next s
  | e :: es, s =>
    match e.deliver s with
    | .next t => deliverAll es t
    | .fault f => .fault f
    | .refused r => .refused r

/-- The sound output: 1 exactly when `ST > 0` (60_exceptions.md R184; log 25). -/
def State.soundOn (s : State) : Bool := decide (0 < s.st.toNat)

/-- The cause code of a fault (60_exceptions.md R170 to R174). -/
def Fault.code : Fault → Nat
  | .invalidMemoryAddress _ => 1
  | .stackOverflow => 2
  | .stackUnderflow => 3
  | .unsupportedInstruction _ => 4
  | .invalidKey _ => 5

end Sys2Proof.Machine
end

