-- ==== Sys2Proof/Safety.lean ====
section
/-! DEFINITION. The words claims use: the invariant of the machine, which parts of the state two states agree on, and
the settled state. -/

namespace Sys2Proof.Machine

/-- `pc` never exceeds 0x10FE and no stack entry exceeds 4096, the address after the last word (10_state.md R24). -/
abbrev State.PcBounded (s : State) : Prop := s.pc.toNat ≤ 0x10FE ∧ ∀ w ∈ s.stack, w.toNat ≤ 4096

/-- The invariant every event keeps: memory and screen in canonical form, at most 16 return addresses
(10_state.md R27), and the bounds of `pc` (R24). -/
abbrev State.Inv (s : State) : Prop :=
  Memory.wf s.cfg s.mem ∧ Screen.wf s.cfg s.screen ∧ s.stack.length ≤ stackCap ∧ s.PcBounded

/-- The parts of the state a frame speaks of. -/
inductive Part where
  | regs | pc | index | stack | delay | sound | memory | screen | keys | config | fault | draws
  deriving DecidableEq, Repr

/-- `t` has the same value of a part as `s`: for memory, every byte reads the same; for the screen, every pixel. -/
def Part.Same (s t : State) : Part → Prop
  | .regs => ∀ r, t.reg r = s.reg r
  | .pc => t.pc = s.pc
  | .index => t.i = s.i
  | .stack => t.stack = s.stack
  | .delay => t.dt = s.dt
  | .sound => t.st = s.st
  | .memory => ∀ a, t.peek a = s.peek a
  | .screen => ∀ px py, t.pixel px py = s.pixel px py
  | .keys => ∀ k, t.key k = s.key k
  | .config => t.cfg = s.cfg
  | .fault => t.faultStatus = s.faultStatus
  | .draws => t.draws = s.draws

/-- `t` agrees with `s` on every part but those named. -/
def SameExcept (ps : List Part) (s t : State) : Prop := ∀ p : Part, p ∉ ps → p.Same s t

/-- `t` has the registers of `s` but for those named. -/
def RegsSameExcept (rs : List Nibble) (s t : State) : Prop := ∀ r, r ∉ rs → t.reg r = s.reg r

/-- Every byte outside the `n` bytes from `a` up reads the same in `t` as in `s`. -/
def MemSameOutside (a n : Nat) (s t : State) : Prop := ∀ b, (b < a ∨ a + n ≤ b) → t.peek b = s.peek b

/-- The word at an address of memory, high byte first. -/
def State.wordAt (s : State) (a : Nat) : Word := wordOfBytes (s.peek a) (s.peek (a + 1))

/-- A set bit of the sprite `bytes` drawn at `(x0, y0)` lies on pixel `(px, py)` (44_display.md R152). -/
def spriteCovers (x0 y0 : Nat) (bytes : List Byte) (px py : Nat) : Bool :=
  decide (x0 ≤ px ∧ px < x0 + 8 ∧ y0 ≤ py ∧ py < y0 + bytes.length) && spriteBit (bytes.getD (py - y0) 0) (px - x0)

/-- The pixel is on the screen. -/
abbrev State.OnScreen (s : State) (px py : Nat) : Prop := px < s.cfg.screenW ∧ py < s.cfg.screenH

/-- The `n` bytes of memory from `a` up. -/
def State.bytesAt (s : State) (a n : Nat) : List Byte := (List.range n).map (fun k => s.peek (a + k))

/-- Settled at `a`: `pc = a`, no fault, and the word at `a` is `Jump(a)` (70_reset_and_hazards.md R196). -/
def State.SettledAt (s : State) (a : Addr12) : Prop :=
  s.pc = immediateWord a ∧ s.faultStatus = none ∧ s.wordAt a.toNat = encode (.jump a)

end Sys2Proof.Machine
end

