-- ==== Sys2Proof/Certificates/Slice0/Obligations.lean ====
section
/-! DEFINITION. The statements for the provers, one `def Obligations.<Name> : Prop` each. Every docstring names the rules
of spec/ it formalises. An instruction's meaning is entered with `pc` already at the next instruction (00_scope.md R12), so
`s.pc` in a statement about `exec` is the address of the instruction plus 2. The bit patterns in every clause about `decode`
are R76's, which the spec takes from general knowledge (decision D2, log 12); that a fault is held in the state is R34 and
R176 (decision D17, log 4). Where a clause rests on another decision D<n> of the spec, or on the model's own choice, the
docstring says so. -/

open Sys2Proof Sys2Proof.Machine

/-! ## Encoding -/

/-- Words written out from 30_encoding.md R76, read high byte first. A sanity statement. -/
def Obligations.SpecWordsDecode : Prop :=
  decodeBytes 0x00 0xE0 = .instr .clearScreen ∧
  decodeBytes 0x00 0xEE = .instr .subroutineReturn ∧
  decodeBytes 0x00 0xFF = .instr (.system 0x0FF) ∧
  decodeBytes 0x1A 0xBC = .instr (.jump 0xABC) ∧
  decodeBytes 0x22 0x10 = .instr (.subroutineCall 0x210) ∧
  decodeBytes 0x37 0x07 = .instr (.skipEqualValue 7 0x07) ∧
  decodeBytes 0x51 0x20 = .instr (.skipEqualRegister 1 2) ∧
  decodeBytes 0x51 0x21 = .unsupported 0x5121 ∧
  decodeBytes 0x81 0x2E = .instr (.aluShiftLeft 1 2) ∧
  decodeBytes 0x81 0x28 = .arithmeticUnknown 1 2 0x8128 ∧
  decodeBytes 0xB2 0x10 = .instr (.jumpOffset 2 0x210) ∧
  decodeBytes 0xD0 0x15 = .instr (.draw 0 1 5) ∧
  decodeBytes 0xE3 0xA1 = .instr (.skipIfKeyReleased 3) ∧
  decodeBytes 0xF2 0x65 = .instr (.loadRegisters 2)

/-- Decode of encode is the instruction, for every well-formed instruction and every operand (30_encoding.md R74, R76,
R77). -/
def Obligations.DecodeOfEncode : Prop :=
  ∀ i : Instr, i.wf = true → decode (encode i) = .instr i

/-- A word that decodes to an instruction is that instruction's word, and the instruction is well formed: no bit of the word
is dropped (30_encoding.md R81). -/
def Obligations.EncodeOfDecode : Prop :=
  ∀ (op : Word) (i : Instr), decode op = .instr i → encode i = op ∧ i.wf = true

/-- The table of 30_encoding.md R79. -/
def inUnsupportedSpace (op : Word) : Bool :=
  (fieldF op == 0x5 && fieldN op != 0) ||
  (fieldF op == 0x8 && [0x8, 0x9, 0xA, 0xB, 0xC, 0xD, 0xF].contains (fieldN op)) ||
  (fieldF op == 0x9 && fieldN op != 0) ||
  (fieldF op == 0xE && !([0x9E, 0xA1].contains (fieldNN op))) ||
  (fieldF op == 0xF && !([0x07, 0x0A, 0x15, 0x18, 0x1E, 0x29, 0x33, 0x55, 0x65].contains (fieldNN op)))

/-- How many words of a family are unsupported: those with family `f`, over every `x`, `y` and `n`. -/
def unsupportedWords (f : Nibble) : Nat :=
  (allNibbles.map fun x => (allNibbles.map fun y =>
    allNibbles.countP fun n => inUnsupportedSpace (wordXYN f x y n)).sum).sum

/-- The unsupported space is exactly R79's: a word in it decodes to no instruction and raises `UnsupportedInstruction(op)`
when executed, every other word decodes to an instruction, and the counts are R79's. That families 5 and 9 check their low
nibble is the spec's decision D4 (log 13). -/
def Obligations.UnsupportedSpace : Prop :=
  (∀ (op : Word) (s : State), inUnsupportedSpace op = true →
    (∀ i, decode op ≠ .instr i) ∧
      ∃ t, execWord op s = .next t ∧ t.faultStatus = some (.unsupportedInstruction op)) ∧
  (∀ op : Word, inUnsupportedSpace op = false → ∃ i, decode op = .instr i) ∧
  unsupportedWords 0x5 = 3840 ∧ unsupportedWords 0x8 = 1792 ∧ unsupportedWords 0x9 = 3840 ∧
  unsupportedWords 0xE = 4064 ∧ unsupportedWords 0xF = 3952 ∧
  (allNibbles.map unsupportedWords).sum = 17488

/-- The decoder selects, of the table's rows that a word matches, the one with the most mask bits: the mask of every row that
matches lies inside the selected row's mask (30_encoding.md R76, R77). -/
def Obligations.DecodeSelectsTableRow : Prop :=
  ∀ (op : Word) (i : Instr), decode op = .instr i →
    op &&& (tableRow i).1 = (tableRow i).2 ∧
    ∀ j : Instr, op &&& (tableRow j).1 = (tableRow j).2 → (tableRow j).1 &&& (tableRow i).1 = (tableRow j).1

/-! ## The step cycle -/

/-- A step of a machine with no fault runs the instruction that the two bytes at `pc` decode to, with `pc` advanced by 2 and
nothing else done around it (30_encoding.md R70). -/
def Obligations.StepRunsDecodedInstruction : Prop :=
  ∀ (s : State) (i : Instr), s.faultStatus = none → s.pc.toNat + 1 < memSize →
    decodeBytes (s.peek s.pc.toNat) (s.peek (s.pc.toNat + 1)) = .instr i →
    step s = exec i (s.setPc (s.pc + 2))

/-- The fetch: the byte at `pc` is the high byte; at 4095 it reports 4096, above it reports `pc` itself (20_memory.md R54,
whose order of the two checks is the spec's decision D18, log 22); a step whose fetch faults records that fault and changes
nothing else, `pc` included (30_encoding.md R70). -/
def Obligations.FetchReadsHighByteFirst : Prop :=
  ∀ s : State,
    (s.pc.toNat + 1 < 4096 →
      ∃ w, s.fetch = .ok w ∧ w.toNat = (s.peek s.pc.toNat).toNat * 256 + (s.peek (s.pc.toNat + 1)).toNat) ∧
    (s.pc.toNat = 4095 → s.fetch = .error (.invalidMemoryAddress 4096)) ∧
    (4096 ≤ s.pc.toNat → s.fetch = .error (.invalidMemoryAddress s.pc.toNat)) ∧
    (s.faultStatus = none → 4095 ≤ s.pc.toNat → ∃ t, step s = .next t ∧
      t.faultStatus = some (.invalidMemoryAddress (max s.pc.toNat 4096)) ∧ SameExcept [.fault] s t)

/-- An unsupported word is fetched and then faults, with the word as payload and `pc` advanced (60_exceptions.md R173, R177;
30_encoding.md R78). -/
def Obligations.UnsupportedWordFaultsWhenExecuted : Prop :=
  ∀ s : State, s.faultStatus = none → s.pc.toNat + 1 < memSize →
    (∀ i, decode (s.wordAt s.pc.toNat) ≠ .instr i) →
    ∃ t, step s = .next t ∧ t.faultStatus = some (.unsupportedInstruction (s.wordAt s.pc.toNat)) ∧
      t.pc = s.pc + 2 ∧ SameExcept [.fault, .pc] s t

/-- The life of the fault status (10_state.md R34; 60_exceptions.md R176, R180; the spec's decision D17, log 4): while it is
set a step does nothing; no event but `Reset` changes it then; an accepted `Reset` clears it. -/
def Obligations.FaultIsStickyUntilReset : Prop :=
  (∀ (s : State) (f : Fault), s.faultStatus = some f → step s = .next s) ∧
  (∀ (e : Event) (s t : State) (f : Fault), s.faultStatus = some f → e.deliver s = .next t →
    (∀ c rom, e ≠ .reset c rom) → t.faultStatus = some f) ∧
  (∀ (c : Config) (rom : List Byte) (s t : State), (Event.reset c rom).deliver s = .next t → t.faultStatus = none)

/-- A step always answers a next state: every instruction has a meaning and every other word a fault, and a fault is
recorded in the state (30_encoding.md R70, R78; 60_exceptions.md R176, the spec's decision D17, log 4). -/
def Obligations.StepAlwaysAnswers : Prop :=
  ∀ s : State, ∃ t, step s = .next t

/-! ## Invariants -/

/-- The invariant holds after reset. Memory's and the screen's canonical forms are the model's own (log 8, log 9). -/
def Obligations.ResetMeetsInvariant : Prop := State.reset.Inv

/-- Every step keeps the invariant: memory and screen stay in range (20_memory.md R50, 10_state.md R31) and in the model's
canonical form (log 8, log 9), the stack within 16 entries (R27), `pc` at most 0x10FE (R24, the spec's decision D8, log 7)
and stack entries at most 4096, the largest `pc` a call can push. -/
def Obligations.StepKeepsInvariant : Prop :=
  ∀ s t : State, s.Inv → step s = .next t → t.Inv

/-- Every run of events, in whatever order the host delivers them (00_scope.md R13), keeps the invariant: memory and screen stay
in range (20_memory.md R50, 10_state.md R31) and in the model's canonical form (log 8, log 9), the stack within 16 entries
(R27), `pc` at most 0x10FE (R24, the spec's decision D8, log 7) and stack entries at most 4096. A `Reset` in the run starts
over from the state of 70_reset_and_hazards.md R190. -/
def Obligations.EventRunsKeepInvariant : Prop :=
  ∀ (es : List Event) (s t : State), s.Inv → deliverAll es s = .next t → t.Inv

/-! ## Which instructions write what -/

/-- No step changes the keypad (10_state.md R32) or the configuration (R33). -/
def Obligations.StepKeepsKeysAndConfiguration : Prop :=
  ∀ s t : State, step s = .next t → (∀ k, t.key k = s.key k) ∧ t.cfg = s.cfg

/-- Memory is written by `DecimalConversion` and `StoreRegisters` alone (20_memory.md R51), the screen by `ClearScreen` and
`Draw` alone (10_state.md R31). -/
def Obligations.MemoryAndScreenWriters : Prop :=
  ∀ (i : Instr) (s t : State), exec i s = .next t →
    (∀ a, t.peek a ≠ s.peek a → (∃ x, i = .decimalConversion x) ∨ ∃ x, i = .storeRegisters x) ∧
    (∀ px py, t.pixel px py ≠ s.pixel px py → i = .clearScreen ∨ ∃ x y n, i = .draw x y n)

/-- The stack is touched by call and return alone (10_state.md R27). -/
def Obligations.StackWriters : Prop :=
  ∀ (i : Instr) (s t : State), exec i s = .next t → t.stack ≠ s.stack →
    i = .subroutineReturn ∨ ∃ nnn, i = .subroutineCall nnn

/-- Within a step, DT is written by `SetDelayTimer` alone and ST by `SetSoundTimer` alone (10_state.md R29, R33). -/
def Obligations.TimerWriters : Prop :=
  ∀ (i : Instr) (s t : State), exec i s = .next t →
    (t.dt ≠ s.dt → ∃ x, i = .setDelayTimer x) ∧ (t.st ≠ s.st → ∃ x, i = .setSoundTimer x)

/-- `I` is written by `SetIndex`, `AddToIndex`, `FontCharacter` and, under CosmacVip only, the block transfers
(10_state.md R25). -/
def Obligations.IndexWriters : Prop :=
  ∀ (i : Instr) (s t : State), exec i s = .next t → t.i ≠ s.i →
    (∃ nnn, i = .setIndex nnn) ∨ (∃ x, i = .addToIndex x) ∨ (∃ x, i = .fontCharacter x) ∨
    (s.cfg.variant = .cosmacVip ∧ ((∃ x, i = .storeRegisters x) ∨ ∃ x, i = .loadRegisters x))

/-- The registers an instruction names as its destination; for `LoadRegisters`, the whole block. -/
def destinations : Instr → List Nibble
  | .setRegister x _ => [x]
  | .addValueRegister x _ => [x]
  | .aluSet x _ => [x]
  | .aluOr x _ => [x]
  | .aluAnd x _ => [x]
  | .aluXor x _ => [x]
  | .aluAdd x _ => [x]
  | .aluSubtract x _ => [x]
  | .aluShiftRight x _ => [x]
  | .aluSubtractInverse x _ => [x]
  | .aluShiftLeft x _ => [x]
  | .random x _ => [x]
  | .getDelayTimer x => [x]
  | .getKey x => [x]
  | .loadRegisters x => registersUpTo x
  | .system _ => []
  | .clearScreen => []
  | .subroutineReturn => []
  | .jump _ => []
  | .subroutineCall _ => []
  | .skipEqualValue _ _ => []
  | .skipNotEqualValue _ _ => []
  | .skipEqualRegister _ _ => []
  | .skipNotEqualRegister _ _ => []
  | .setIndex _ => []
  | .jumpOffset _ _ => []
  | .draw _ _ _ => []
  | .skipIfKeyPressed _ => []
  | .skipIfKeyReleased _ => []
  | .setDelayTimer _ => []
  | .setSoundTimer _ => []
  | .addToIndex _ => []
  | .fontCharacter _ => []
  | .decimalConversion _ => []
  | .storeRegisters _ => []

/-- The instructions that write VF as a flag (10_state.md R22). -/
def writesFlag : Instr → Prop
  | .aluAdd _ _ => True
  | .aluSubtract _ _ => True
  | .aluSubtractInverse _ _ => True
  | .aluShiftRight _ _ => True
  | .aluShiftLeft _ _ => True
  | .draw _ _ _ => True
  | .addToIndex _ => True
  | .setRegister _ _ => False
  | .addValueRegister _ _ => False
  | .aluSet _ _ => False
  | .aluOr _ _ => False
  | .aluAnd _ _ => False
  | .aluXor _ _ => False
  | .random _ _ => False
  | .getDelayTimer _ => False
  | .getKey _ => False
  | .loadRegisters _ => False
  | .system _ => False
  | .clearScreen => False
  | .subroutineReturn => False
  | .jump _ => False
  | .subroutineCall _ => False
  | .skipEqualValue _ _ => False
  | .skipNotEqualValue _ _ => False
  | .skipEqualRegister _ _ => False
  | .skipNotEqualRegister _ _ => False
  | .setIndex _ => False
  | .jumpOffset _ _ => False
  | .skipIfKeyPressed _ => False
  | .skipIfKeyReleased _ => False
  | .setDelayTimer _ => False
  | .setSoundTimer _ => False
  | .fontCharacter _ => False
  | .decimalConversion _ => False
  | .storeRegisters _ => False

/-- A register changes only if the instruction names it as a destination, or it is VF and the instruction writes the flag:
no other instruction changes VF (10_state.md R20, R22). -/
def Obligations.RegisterAndFlagWriters : Prop :=
  ∀ (i : Instr) (s t : State) (r : Nibble), exec i s = .next t → t.reg r ≠ s.reg r →
    r ∈ destinations i ∨ (r = 15 ∧ writesFlag i)

/-- After the fetch advance `pc` is changed by jumps, call, return, the skips (by 2 more) and `GetKey` (by 2 less) alone
(10_state.md R23). -/
def Obligations.ProgramCounterWriters : Prop :=
  ∀ (i : Instr) (s t : State), exec i s = .next t → t.pc ≠ s.pc →
    i = .subroutineReturn ∨ (∃ nnn, i = .jump nnn) ∨ (∃ nnn, i = .subroutineCall nnn) ∨ (∃ x nnn, i = .jumpOffset x nnn) ∨
    (t.pc = s.pc + 2 ∧ ((∃ x nn, i = .skipEqualValue x nn) ∨ (∃ x nn, i = .skipNotEqualValue x nn) ∨
      (∃ x y, i = .skipEqualRegister x y) ∨ (∃ x y, i = .skipNotEqualRegister x y) ∨
      (∃ x, i = .skipIfKeyPressed x) ∨ ∃ x, i = .skipIfKeyReleased x)) ∨
    (t.pc = s.pc - 2 ∧ ∃ x, i = .getKey x)

/-- The state with another variant selected. -/
def withVariant (s : State) (v : Variant) : State := { s with cfg := { s.cfg with variant := v } }

/-- The variant alters the two shifts, `JumpOffset` and the two block transfers and nothing else (00_scope.md R6;
30_encoding.md R71). Every other instruction does the same under either variant; each of the five, in some state and on some
operands, completes under both and differs in the very part R6 names: the register shifted, `pc`, or `I`. -/
def Obligations.VariantAltersFiveEncodings : Prop :=
  (∀ (i : Instr) (s t : State) (v : Variant), exec i s = .next t →
    (∀ x y, i ≠ .aluShiftRight x y) → (∀ x y, i ≠ .aluShiftLeft x y) → (∀ x nnn, i ≠ .jumpOffset x nnn) →
    (∀ x, i ≠ .storeRegisters x) → (∀ x, i ≠ .loadRegisters x) →
    exec i (withVariant s v) = .next (withVariant t v)) ∧
  (∃ x y s t u, exec (.aluShiftRight x y) (withVariant s .cosmacVip) = .next t ∧
    exec (.aluShiftRight x y) (withVariant s .chip48) = .next u ∧ t.reg x ≠ u.reg x) ∧
  (∃ x y s t u, exec (.aluShiftLeft x y) (withVariant s .cosmacVip) = .next t ∧
    exec (.aluShiftLeft x y) (withVariant s .chip48) = .next u ∧ t.reg x ≠ u.reg x) ∧
  (∃ nnn s t u, exec (.jumpOffset (topNibble nnn) nnn) (withVariant s .cosmacVip) = .next t ∧
    exec (.jumpOffset (topNibble nnn) nnn) (withVariant s .chip48) = .next u ∧ t.pc ≠ u.pc) ∧
  (∃ x s t u, exec (.storeRegisters x) (withVariant s .cosmacVip) = .next t ∧
    exec (.storeRegisters x) (withVariant s .chip48) = .next u ∧ t.faultStatus = none ∧ u.faultStatus = none ∧ t.i ≠ u.i) ∧
  (∃ x s t u, exec (.loadRegisters x) (withVariant s .cosmacVip) = .next t ∧
    exec (.loadRegisters x) (withVariant s .chip48) = .next u ∧ t.faultStatus = none ∧ u.faultStatus = none ∧ t.i ≠ u.i)

/-! ## Faults of instructions -/

/-- Which instruction raises which fault, and why (60_exceptions.md R170 to R172, R174, R179); `UnsupportedInstruction` is
raised by no instruction of the table. `InvalidKey` is the spec's own fault (decision D13, log 15). -/
def Obligations.FaultCauses : Prop :=
  ∀ (i : Instr) (s t : State) (f : Fault), s.faultStatus = none → exec i s = .next t → t.faultStatus = some f →
    match f with
    | .invalidMemoryAddress a => 4095 < a ∧ ((∃ x y n, i = .draw x y n) ∨ (∃ x, i = .decimalConversion x) ∨
        (∃ x, i = .storeRegisters x) ∨ ∃ x, i = .loadRegisters x)
    | .stackOverflow => 16 ≤ s.stack.length ∧ ∃ nnn, i = .subroutineCall nnn
    | .stackUnderflow => s.stack = [] ∧ i = .subroutineReturn
    | .unsupportedInstruction _ => False
    | .invalidKey v => 15 < v.toNat ∧ ∃ x, s.reg x = v ∧ (i = .skipIfKeyPressed x ∨ i = .skipIfKeyReleased x)

/-- What an instruction that faults has changed: every write before the faulting access and nothing else (60_exceptions.md
R177, the spec's decisions D17 and D18, log 4 and log 22). `pc` and `I` stand. Memory changes for `DecimalConversion` and
`StoreRegisters` alone, from `I` to the end of memory (no byte when `I` is above 4095), where each element that lies in memory
is written; registers change for `LoadRegisters` alone, those whose byte lies in memory. -/
def Obligations.FaultPrecision : Prop :=
  ∀ (i : Instr) (s t : State), s.faultStatus = none → exec i s = .next t → t.faultStatus ≠ none →
    SameExcept [.fault, .memory, .regs] s t ∧
    ((∀ x, i ≠ .loadRegisters x) → ∀ r, t.reg r = s.reg r) ∧
    ((∀ x, i ≠ .decimalConversion x) → (∀ x, i ≠ .storeRegisters x) → ∀ a, t.peek a = s.peek a) ∧
    MemSameOutside s.i.toNat (4096 - s.i.toNat) s t ∧
    (∀ x, i = .decimalConversion x →
      (s.i.toNat ≤ 4095 → (t.peek s.i.toNat).toNat = (s.reg x).toNat / 100) ∧
      (s.i.toNat + 1 ≤ 4095 → (t.peek (s.i.toNat + 1)).toNat = (s.reg x).toNat / 10 % 10)) ∧
    (∀ x, i = .storeRegisters x →
      ∀ r : Nibble, r.toNat ≤ x.toNat → s.i.toNat + r.toNat ≤ 4095 → t.peek (s.i.toNat + r.toNat) = s.reg r) ∧
    (∀ x, i = .loadRegisters x →
      ∀ r : Nibble, t.reg r =
        if r.toNat ≤ x.toNat ∧ s.i.toNat + r.toNat ≤ 4095 then s.peek (s.i.toNat + r.toNat) else s.reg r)

/-! ## Flow of control -/

/-- `System` (40_flow.md R100): every family-0 word but 0x00E0 and 0x00EE, which is the spec's decision D3 (log 14); the
step's only effect is the fetch advance. -/
def Obligations.SystemOnlyAdvances : Prop :=
  (∀ nnn : Addr12, nnn ≠ 0x0E0 → nnn ≠ 0x0EE → decode (wordNNN 0x0 nnn) = .instr (.system nnn)) ∧
  (∀ (nnn : Addr12) (s : State), exec (.system nnn) s = .next s) ∧
  (∀ (nnn : Addr12) (s : State), s.faultStatus = none → s.pc.toNat + 1 < memSize → nnn ≠ 0x0E0 → nnn ≠ 0x0EE →
    s.wordAt s.pc.toNat = wordNNN 0x0 nnn → ∃ t, step s = .next t ∧ t.pc = s.pc + 2 ∧ SameExcept [.pc] s t)

/-- `SubroutineReturn` (40_flow.md R101). -/
def Obligations.ReturnPopsProgramCounter : Prop :=
  decode 0x00EE = .instr .subroutineReturn ∧
  (∀ (s : State) (w : Word) (ws : List Word), s.stack = w :: ws →
    ∃ t, exec .subroutineReturn s = .next t ∧ t.pc = w ∧ t.stack = ws ∧ SameExcept [.pc, .stack] s t) ∧
  (∀ s : State, s.stack = [] → ∃ t, exec .subroutineReturn s = .next t ∧ t.faultStatus = some .stackUnderflow)

/-- `Jump` (40_flow.md R102). -/
def Obligations.JumpSetsProgramCounter : Prop :=
  ∀ nnn : Addr12, decode (wordNNN 0x1 nnn) = .instr (.jump nnn) ∧
    ∀ s : State, ∃ t, exec (.jump nnn) s = .next t ∧ t.pc.toNat = nnn.toNat ∧ SameExcept [.pc] s t

/-- `SubroutineCall` (40_flow.md R103): pushes the address of the next instruction; with 16 entries it overflows and, as the
spec derives ("the push precedes the jump"), does not jump. -/
def Obligations.CallPushesReturnAddress : Prop :=
  ∀ nnn : Addr12, decode (wordNNN 0x2 nnn) = .instr (.subroutineCall nnn) ∧
    (∀ s : State, s.stack.length < 16 → ∃ t, exec (.subroutineCall nnn) s = .next t ∧
      t.stack = s.pc :: s.stack ∧ t.pc.toNat = nnn.toNat ∧ SameExcept [.pc, .stack] s t) ∧
    (∀ s : State, s.stack.length = 16 → ∃ t, exec (.subroutineCall nnn) s = .next t ∧
      t.faultStatus = some .stackOverflow ∧ t.pc = s.pc ∧ t.stack = s.stack)

/-- `JumpOffset` (40_flow.md R104): V0 or Vx by the variant; the sum is not reduced to 12 bits, the spec's decision D8
(log 7). The completion holds for every pair of `x` and `nnn`, those no word encodes included (90_conflicts.md C7, log 19). -/
def Obligations.JumpOffsetAddsRegister : Prop :=
  (∀ nnn : Addr12, decode (wordNNN 0xB nnn) = .instr (.jumpOffset (topNibble nnn) nnn)) ∧
  ∀ (x : Nibble) (nnn : Addr12) (s : State), ∃ t, exec (.jumpOffset x nnn) s = .next t ∧
    (s.cfg.variant = .cosmacVip → t.pc.toNat = nnn.toNat + (s.reg 0).toNat) ∧
    (s.cfg.variant = .chip48 → t.pc.toNat = nnn.toNat + (s.reg x).toNat) ∧
    SameExcept [.pc] s t

/-- A call and then a return leave the state the call started from: `pc` at the instruction after the call and the stack as it
was (40_flow.md R101, R103; 10_state.md R27). -/
def Obligations.CallThenReturnRestores : Prop :=
  ∀ (nnn : Addr12) (s : State), s.stack.length < 16 →
    ∃ t, exec (.subroutineCall nnn) s = .next t ∧ exec .subroutineReturn t = .next s

/-! ## Skips -/

/-- `SkipEqualValue` with either polarity (41_skips.md R110, R111). -/
def Obligations.SkipOnValue : Prop :=
  ∀ (x : Nibble) (nn : Byte),
    decode (wordXNN 0x3 x nn) = .instr (.skipEqualValue x nn) ∧
    decode (wordXNN 0x4 x nn) = .instr (.skipNotEqualValue x nn) ∧
    ∀ s : State,
      (∃ t, exec (.skipEqualValue x nn) s = .next t ∧
        t.pc = (if (s.reg x).toNat = nn.toNat then s.pc + 2 else s.pc) ∧ SameExcept [.pc] s t) ∧
      (∃ t, exec (.skipNotEqualValue x nn) s = .next t ∧
        t.pc = (if (s.reg x).toNat ≠ nn.toNat then s.pc + 2 else s.pc) ∧ SameExcept [.pc] s t)

/-- `SkipEqualRegister` with either polarity (41_skips.md R112, R113); with a non-zero low nibble the words are unsupported,
the spec's decision D4 (log 13). -/
def Obligations.SkipOnRegister : Prop :=
  ∀ x y : Nibble,
    decode (wordXYN 0x5 x y 0x0) = .instr (.skipEqualRegister x y) ∧
    decode (wordXYN 0x9 x y 0x0) = .instr (.skipNotEqualRegister x y) ∧
    (∀ n : Nibble, n ≠ 0 → decode (wordXYN 0x5 x y n) = .unsupported (wordXYN 0x5 x y n) ∧
      decode (wordXYN 0x9 x y n) = .unsupported (wordXYN 0x9 x y n)) ∧
    ∀ s : State,
      (∃ t, exec (.skipEqualRegister x y) s = .next t ∧
        t.pc = (if (s.reg x).toNat = (s.reg y).toNat then s.pc + 2 else s.pc) ∧ SameExcept [.pc] s t) ∧
      (∃ t, exec (.skipNotEqualRegister x y) s = .next t ∧
        t.pc = (if (s.reg x).toNat ≠ (s.reg y).toNat then s.pc + 2 else s.pc) ∧ SameExcept [.pc] s t)

/-- `SkipIfKey` with either polarity (41_skips.md R114, R115): the key is the register's value; above 15 it raises
`InvalidKey`, the spec's decision D13 (log 15). -/
def Obligations.SkipOnKey : Prop :=
  ∀ x : Nibble,
    decode (wordXNN 0xE x 0x9E) = .instr (.skipIfKeyPressed x) ∧
    decode (wordXNN 0xE x 0xA1) = .instr (.skipIfKeyReleased x) ∧
    (∀ (s : State) (k : Nibble), (s.reg x).toNat = k.toNat →
      (∃ t, exec (.skipIfKeyPressed x) s = .next t ∧
        t.pc = (if s.key k = true then s.pc + 2 else s.pc) ∧ SameExcept [.pc] s t) ∧
      (∃ t, exec (.skipIfKeyReleased x) s = .next t ∧
        t.pc = (if s.key k = false then s.pc + 2 else s.pc) ∧ SameExcept [.pc] s t)) ∧
    (∀ s : State, 15 < (s.reg x).toNat →
      (∃ t, exec (.skipIfKeyPressed x) s = .next t ∧ t.faultStatus = some (.invalidKey (s.reg x))) ∧
      (∃ t, exec (.skipIfKeyReleased x) s = .next t ∧ t.faultStatus = some (.invalidKey (s.reg x))))

/-! ## Registers and the ALU -/

/-- `SetRegister` and `AddValueRegister` (42_alu.md R120, R121): the destination alone changes; no flag, even on overflow. -/
def Obligations.ImmediateSetAndAdd : Prop :=
  ∀ (x : Nibble) (nn : Byte),
    decode (wordXNN 0x6 x nn) = .instr (.setRegister x nn) ∧
    decode (wordXNN 0x7 x nn) = .instr (.addValueRegister x nn) ∧
    ∀ s : State,
      (∃ t, exec (.setRegister x nn) s = .next t ∧ t.reg x = nn ∧ RegsSameExcept [x] s t ∧ SameExcept [.regs] s t) ∧
      (∃ t, exec (.addValueRegister x nn) s = .next t ∧
        (t.reg x).toNat = ((s.reg x).toNat + nn.toNat) % 256 ∧ RegsSameExcept [x] s t ∧ SameExcept [.regs] s t)

/-- `Set`, `Or`, `And`, `Xor` (42_alu.md R122 to R125): bit by bit, with no flag effect. -/
def Obligations.LogicalOperators : Prop :=
  ∀ x y : Nibble,
    decode (wordXYN 0x8 x y 0x0) = .instr (.aluSet x y) ∧ decode (wordXYN 0x8 x y 0x1) = .instr (.aluOr x y) ∧
    decode (wordXYN 0x8 x y 0x2) = .instr (.aluAnd x y) ∧ decode (wordXYN 0x8 x y 0x3) = .instr (.aluXor x y) ∧
    ∀ s : State,
      (∃ t, exec (.aluSet x y) s = .next t ∧ t.reg x = s.reg y ∧ RegsSameExcept [x] s t ∧ SameExcept [.regs] s t) ∧
      (∃ t, exec (.aluOr x y) s = .next t ∧
        (∀ b, (t.reg x).getLsbD b = ((s.reg x).getLsbD b || (s.reg y).getLsbD b)) ∧
        RegsSameExcept [x] s t ∧ SameExcept [.regs] s t) ∧
      (∃ t, exec (.aluAnd x y) s = .next t ∧
        (∀ b, (t.reg x).getLsbD b = ((s.reg x).getLsbD b && (s.reg y).getLsbD b)) ∧
        RegsSameExcept [x] s t ∧ SameExcept [.regs] s t) ∧
      (∃ t, exec (.aluXor x y) s = .next t ∧
        (∀ b, (t.reg x).getLsbD b = ((s.reg x).getLsbD b ^^ (s.reg y).getLsbD b)) ∧
        RegsSameExcept [x] s t ∧ SameExcept [.regs] s t)

/-- `Add` (42_alu.md R126): the sum modulo 256, then VF the carry; with destination VF the carry stays. Operands are the
values before the step. -/
def Obligations.AddSetsCarry : Prop :=
  ∀ x y : Nibble, decode (wordXYN 0x8 x y 0x4) = .instr (.aluAdd x y) ∧
    ∀ s : State, ∃ t, exec (.aluAdd x y) s = .next t ∧
      (x ≠ 15 → (t.reg x).toNat = ((s.reg x).toNat + (s.reg y).toNat) % 256) ∧
      t.reg 15 = (if (s.reg x).toNat + (s.reg y).toNat > 255 then 1 else 0) ∧
      RegsSameExcept [x, 15] s t ∧ SameExcept [.regs] s t

/-- `Subtract` and `SubtractInverse` (42_alu.md R127, R128): the absolute difference, never the modulo-256 one, then VF = no
borrow. -/
def Obligations.SubtractGivesAbsoluteDifference : Prop :=
  ∀ x y : Nibble,
    decode (wordXYN 0x8 x y 0x5) = .instr (.aluSubtract x y) ∧
    decode (wordXYN 0x8 x y 0x7) = .instr (.aluSubtractInverse x y) ∧
    ∀ s : State,
      (∃ t, exec (.aluSubtract x y) s = .next t ∧
        (x ≠ 15 → ((t.reg x).toNat : Int) = |((s.reg x).toNat : Int) - ((s.reg y).toNat : Int)|) ∧
        t.reg 15 = (if (s.reg x).toNat ≥ (s.reg y).toNat then 1 else 0) ∧
        RegsSameExcept [x, 15] s t ∧ SameExcept [.regs] s t) ∧
      (∃ t, exec (.aluSubtractInverse x y) s = .next t ∧
        (x ≠ 15 → ((t.reg x).toNat : Int) = |((s.reg y).toNat : Int) - ((s.reg x).toNat : Int)|) ∧
        t.reg 15 = (if (s.reg y).toNat ≥ (s.reg x).toNat then 1 else 0) ∧
        RegsSameExcept [x, 15] s t ∧ SameExcept [.regs] s t)

/-- `ShiftRight` and `ShiftLeft` (42_alu.md R129, R130, R131): the source is Vy under CosmacVip and Vx under Chip48; the
result is one place away, then VF is the bit shifted out. -/
def Obligations.ShiftsByVariant : Prop :=
  ∀ x y : Nibble,
    decode (wordXYN 0x8 x y 0x6) = .instr (.aluShiftRight x y) ∧
    decode (wordXYN 0x8 x y 0xE) = .instr (.aluShiftLeft x y) ∧
    ∀ (s : State) (src : Byte), (s.cfg.variant = .cosmacVip → src = s.reg y) → (s.cfg.variant = .chip48 → src = s.reg x) →
      (∃ t, exec (.aluShiftRight x y) s = .next t ∧
        (x ≠ 15 → (t.reg x).toNat = src.toNat / 2) ∧ (t.reg 15).toNat = src.toNat % 2 ∧
        RegsSameExcept [x, 15] s t ∧ SameExcept [.regs] s t) ∧
      (∃ t, exec (.aluShiftLeft x y) s = .next t ∧
        (x ≠ 15 → (t.reg x).toNat = src.toNat * 2 % 256) ∧ (t.reg 15).toNat = src.toNat / 128 ∧
        RegsSameExcept [x, 15] s t ∧ SameExcept [.regs] s t)

/-! ## Index and memory -/

/-- `SetIndex` and `FontCharacter` (43_index_memory.md R140, R142). -/
def Obligations.IndexSetAndFontLookup : Prop :=
  (∀ nnn : Addr12, decode (wordNNN 0xA nnn) = .instr (.setIndex nnn) ∧
    ∀ s : State, ∃ t, exec (.setIndex nnn) s = .next t ∧ t.i.toNat = nnn.toNat ∧ SameExcept [.index] s t) ∧
  (∀ x : Nibble, decode (wordXNN 0xF x 0x29) = .instr (.fontCharacter x) ∧
    ∀ s : State, ∃ t, exec (.fontCharacter x) s = .next t ∧
      t.i.toNat = s.cfg.fontBase.toNat + (s.reg x).toNat % 16 * 5 ∧ SameExcept [.index] s t)

/-- `AddToIndex` (43_index_memory.md R141): the sum modulo 65536, the spec's decision D6 (log 17); VF becomes 1 on the
crossing of 0xFFF and is otherwise left as it was, never cleared (90_conflicts.md C5). -/
def Obligations.AddToIndexSetsVfOnCrossing : Prop :=
  ∀ x : Nibble, decode (wordXNN 0xF x 0x1E) = .instr (.addToIndex x) ∧
    ∀ s : State, ∃ t, exec (.addToIndex x) s = .next t ∧
      t.i.toNat = (s.i.toNat + (s.reg x).toNat) % 65536 ∧
      t.reg 15 = (if s.i.toNat ≤ 0xFFF ∧ t.i.toNat > 0xFFF then 1 else s.reg 15) ∧
      RegsSameExcept [15] s t ∧ SameExcept [.index, .regs] s t

/-- `DecimalConversion` (43_index_memory.md R143): hundreds, tens and units at `I`, `I+1`, `I+2`, and no other byte; `I` keeps
its value. Past 4095 it faults at the first address out of range in ascending order, the spec's decision D18 (log 22). -/
def Obligations.DecimalConversionStoresDigits : Prop :=
  ∀ x : Nibble, decode (wordXNN 0xF x 0x33) = .instr (.decimalConversion x) ∧
    (∀ s : State, s.i.toNat + 2 ≤ 4095 → ∃ t, exec (.decimalConversion x) s = .next t ∧
      (t.peek s.i.toNat).toNat = (s.reg x).toNat / 100 ∧
      (t.peek (s.i.toNat + 1)).toNat = (s.reg x).toNat / 10 % 10 ∧
      (t.peek (s.i.toNat + 2)).toNat = (s.reg x).toNat % 10 ∧
      MemSameOutside s.i.toNat 3 s t ∧ SameExcept [.memory] s t) ∧
    (∀ s : State, 4095 < s.i.toNat + 2 → ∃ t, exec (.decimalConversion x) s = .next t ∧
      t.faultStatus = some (.invalidMemoryAddress (max s.i.toNat 4096)))

/-- What a block transfer of `x + 1` registers leaves in `I` (43_index_memory.md R144, R145). -/
def indexAfterBlock (s : State) (x : Nibble) : Nat :=
  match s.cfg.variant with
  | .cosmacVip => (s.i.toNat + x.toNat + 1) % 65536
  | .chip48 => s.i.toNat

/-- `StoreRegisters` (43_index_memory.md R144): V0 to Vx at `I` up and no other byte; `I` by the variant. Past 4095 it
faults at the first address out of range in ascending order (the spec's decision D18, log 22) and `I` stands. -/
def Obligations.StoreRegistersWritesBlock : Prop :=
  ∀ x : Nibble, decode (wordXNN 0xF x 0x55) = .instr (.storeRegisters x) ∧
    (∀ s : State, s.i.toNat + x.toNat ≤ 4095 → ∃ t, exec (.storeRegisters x) s = .next t ∧
      (∀ r : Nibble, r.toNat ≤ x.toNat → t.peek (s.i.toNat + r.toNat) = s.reg r) ∧
      MemSameOutside s.i.toNat (x.toNat + 1) s t ∧
      t.i.toNat = indexAfterBlock s x ∧ SameExcept [.memory, .index] s t) ∧
    (∀ s : State, 4095 < s.i.toNat + x.toNat → ∃ t, exec (.storeRegisters x) s = .next t ∧
      t.faultStatus = some (.invalidMemoryAddress (max s.i.toNat 4096)) ∧ t.i = s.i)

/-- `LoadRegisters` (43_index_memory.md R145): V0 to Vx from `I` up and no other register; `I` by the variant. Past 4095 it
faults at the first address out of range in ascending order (the spec's decision D18, log 22) and `I` stands. -/
def Obligations.LoadRegistersReadsBlock : Prop :=
  ∀ x : Nibble, decode (wordXNN 0xF x 0x65) = .instr (.loadRegisters x) ∧
    (∀ s : State, s.i.toNat + x.toNat ≤ 4095 → ∃ t, exec (.loadRegisters x) s = .next t ∧
      (∀ r : Nibble, t.reg r = if r.toNat ≤ x.toNat then s.peek (s.i.toNat + r.toNat) else s.reg r) ∧
      t.i.toNat = indexAfterBlock s x ∧ SameExcept [.regs, .index] s t) ∧
    (∀ s : State, 4095 < s.i.toNat + x.toNat → ∃ t, exec (.loadRegisters x) s = .next t ∧
      t.faultStatus = some (.invalidMemoryAddress (max s.i.toNat 4096)) ∧ t.i = s.i)

/-- `MemRead` and `MemWrite` (20_memory.md R52, R53): every address to 4095 is readable and writable; a write changes that
byte and no other; above 4095 both raise `InvalidMemoryAddress`. -/
def Obligations.MemoryIsBoundsCheckedBytes : Prop :=
  ∀ (s : State) (a : Nat) (w : Byte),
    (a ≤ 4095 → s.readByte a = .ok (s.peek a) ∧
      ∃ t, s.writeByte a w = .ok t ∧ t.readByte a = .ok w ∧ (∀ b, b ≠ a → t.readByte b = s.readByte b) ∧
        SameExcept [.memory] s t) ∧
    (4095 < a → s.readByte a = .error (.invalidMemoryAddress a) ∧ s.writeByte a w = .error (.invalidMemoryAddress a))

/-- A store is seen by the very next fetch: after `StoreRegisters` over the bytes at `pc`, the word fetched there is made
of the registers stored (20_memory.md R63, which the spec derives from its R54 and R62). -/
def Obligations.StoreIsSeenByNextFetch : Prop :=
  ∀ (x r q : Nibble) (s : State), s.i.toNat + x.toNat ≤ 4095 → q.toNat = r.toNat + 1 → q.toNat ≤ x.toNat →
    s.pc.toNat = s.i.toNat + r.toNat →
    ∃ t, exec (.storeRegisters x) s = .next t ∧ t.fetch = .ok (wordOfBytes (s.reg r) (s.reg q))

/-! ## Display -/

/-- `ClearScreen` (44_display.md R150): every pixel off, and nothing else, VF included. -/
def Obligations.ClearScreenTurnsAllOff : Prop :=
  decode 0x00E0 = .instr .clearScreen ∧
  ∀ s : State, ∃ t, exec .clearScreen s = .next t ∧ (∀ px py, t.pixel px py = false) ∧ SameExcept [.screen] s t

/-- A set bit of the sprite that `Draw(x, y, n)` draws in `s` lies on the pixel, and the pixel is on the screen
(44_display.md R151, R152). -/
def drawsOn (s : State) (x y n : Nibble) (px py : Nat) : Prop :=
  spriteCovers ((s.reg x).toNat % s.cfg.screenW) ((s.reg y).toNat % s.cfg.screenH) (s.bytesAt s.i.toNat n.toNat) px py
    = true ∧ s.OnScreen px py

/-- `Draw` (44_display.md R151, R152): the pixels that visible set sprite bits cover flip, and no other; VF is 1 if one of
them was on, else 0, and no other register changes. A sprite byte above 4095 faults, and the screen and VF stand. That
rows below the screen are clipped, and are still read, is the spec's decision D12 (log 21). -/
def Obligations.DrawFlipsCoveredPixels : Prop :=
  ∀ x y n : Nibble, decode (wordXYN 0xD x y n) = .instr (.draw x y n) ∧
    (∀ s : State, n = 0 ∨ s.i.toNat + n.toNat ≤ 4096 → ∃ t, exec (.draw x y n) s = .next t ∧
      (∀ px py, drawsOn s x y n px py → t.pixel px py = !s.pixel px py) ∧
      (∀ px py, ¬drawsOn s x y n px py → t.pixel px py = s.pixel px py) ∧
      ((∃ px py, drawsOn s x y n px py ∧ s.pixel px py = true) → t.reg 15 = 1) ∧
      ((∀ px py, drawsOn s x y n px py → s.pixel px py = false) → t.reg 15 = 0) ∧
      RegsSameExcept [15] s t ∧ SameExcept [.screen, .regs] s t) ∧
    (∀ s : State, n ≠ 0 → 4096 < s.i.toNat + n.toNat → ∃ t, exec (.draw x y n) s = .next t ∧
      t.faultStatus = some (.invalidMemoryAddress (max s.i.toNat 4096)) ∧
      (∀ px py, t.pixel px py = s.pixel px py) ∧ t.reg 15 = s.reg 15)

/-- Drawing the same sprite twice at the same place (44_display.md R153 a, which the spec derives from R152): the second
draw restores the screen; on a screen where the covered pixels are off, the first reports no collision and the second
reports one exactly when some pixel is drawn. "The same place" is the premise that the coordinate registers still hold
their values, which VF as a coordinate need not. -/
def Obligations.DrawTwiceRestoresScreen : Prop :=
  ∀ (x y n : Nibble) (s t : State), n = 0 ∨ s.i.toNat + n.toNat ≤ 4096 →
    exec (.draw x y n) s = .next t → t.reg x = s.reg x → t.reg y = s.reg y →
    ∃ u, exec (.draw x y n) t = .next u ∧
      (∀ px py, u.pixel px py = s.pixel px py) ∧
      ((∀ px py, drawsOn s x y n px py → s.pixel px py = false) → t.reg 15 = 0 ∧
        ((∃ px py, drawsOn s x y n px py) → u.reg 15 = 1) ∧ ((∀ px py, ¬drawsOn s x y n px py) → u.reg 15 = 0))

/-! ## Timers, keys, random -/

/-- The three timer moves (45_timers_keys_random.md R160, R161, R162). -/
def Obligations.TimerMoves : Prop :=
  ∀ x : Nibble,
    decode (wordXNN 0xF x 0x07) = .instr (.getDelayTimer x) ∧
    decode (wordXNN 0xF x 0x15) = .instr (.setDelayTimer x) ∧
    decode (wordXNN 0xF x 0x18) = .instr (.setSoundTimer x) ∧
    ∀ s : State,
      (∃ t, exec (.getDelayTimer x) s = .next t ∧ t.reg x = s.dt ∧ RegsSameExcept [x] s t ∧ SameExcept [.regs] s t) ∧
      (∃ t, exec (.setDelayTimer x) s = .next t ∧ t.dt = s.reg x ∧ SameExcept [.delay] s t) ∧
      (∃ t, exec (.setSoundTimer x) s = .next t ∧ t.st = s.reg x ∧ SameExcept [.sound] s t)

/-- `GetKey` (45_timers_keys_random.md R163): with no key down a step at it changes nothing at all, the spec's decision D14
(log 16); with keys down V[x] gets a pressed key, whichever the free value picks (log 6). -/
def Obligations.GetKeyWaitsForKey : Prop :=
  ∀ x : Nibble, decode (wordXNN 0xF x 0x0A) = .instr (.getKey x) ∧
    (∀ s : State, (∀ k, s.key k = false) →
      ∃ t, exec (.getKey x) s = .next t ∧ t.pc = s.pc - 2 ∧ SameExcept [.pc] s t) ∧
    (∀ s : State, s.faultStatus = none → s.pc.toNat + 1 < memSize → s.wordAt s.pc.toNat = wordXNN 0xF x 0x0A →
      (∀ k, s.key k = false) → step s = .next s) ∧
    (∀ s : State, (∃ k, s.key k = true) → ∃ t, exec (.getKey x) s = .next t ∧
      (∃ k, s.key k = true ∧ (t.reg x).toNat = k.toNat) ∧ RegsSameExcept [x] s t ∧ SameExcept [.regs, .draws] s t)

/-- `Random` (45_timers_keys_random.md R164): a byte under no law, the free value of this draw (log 5), under the mask. -/
def Obligations.RandomMasksFreeByte : Prop :=
  ∀ (x : Nibble) (nn : Byte), decode (wordXNN 0xC x nn) = .instr (.random x nn) ∧
    ∀ s : State, ∃ t, exec (.random x nn) s = .next t ∧
      (∃ rnd, rnd = Config.randomByte s.draws ∧ t.reg x = rnd &&& nn) ∧
      (∀ b, nn.getLsbD b = false → (t.reg x).getLsbD b = false) ∧
      t.draws = s.draws + 1 ∧ RegsSameExcept [x] s t ∧ SameExcept [.regs, .draws] s t

/-! ## Host events -/

/-- `Tick` (60_exceptions.md R181): both timers down by one, the spec's decision D16 (log 10), saturating at 0, and nothing
else. -/
def Obligations.TickCountsBothTimersDown : Prop :=
  ∀ s : State, ∃ t, Event.tick.deliver s = .next t ∧ t.dt.toNat = s.dt.toNat - 1 ∧ t.st.toNat = s.st.toNat - 1 ∧
    SameExcept [.delay, .sound] s t

/-- `KeyDown(k)` and `KeyUp(k)` (60_exceptions.md R183): one key bit, and nothing else. -/
def Obligations.KeyEventsSetOneBit : Prop :=
  ∀ (k : Nibble) (s : State),
    (∃ t, (Event.keyDown k).deliver s = .next t ∧ t.key k = true ∧ (∀ j, j ≠ k → t.key j = s.key j) ∧
      SameExcept [.keys] s t) ∧
    (∃ t, (Event.keyUp k).deliver s = .next t ∧ t.key k = false ∧ (∀ j, j ≠ k → t.key j = s.key j) ∧
      SameExcept [.keys] s t)

/-- The state after an accepted `Reset(config, ROM)`: every row of the table of 10_state.md R41, whose values are the spec's
decision D9 (log 3). -/
def Obligations.ResetBuildsStartState : Prop :=
  ∀ (c : Config) (rom : List Byte) (s : State), c.WellFormed rom.length → rom.length ≤ 3584 →
    ∃ t, (Event.reset c rom).deliver s = .next t ∧
      (∀ r, t.reg r = 0) ∧ t.pc = 0x200 ∧ t.i = 0 ∧ t.stack = [] ∧ t.dt = 0 ∧ t.st = 0 ∧
      (∀ j : Fin 80, t.peek (c.fontBase.toNat + j.val) = c.fontTable[j.val]) ∧
      (∀ j : Nat, j < rom.length → t.peek (0x200 + j) = rom.getD j 0) ∧
      (∀ a : Nat, (a < c.fontBase.toNat ∨ c.fontBase.toNat + 80 ≤ a) → (a < 0x200 ∨ 0x200 + rom.length ≤ a) → t.peek a = 0) ∧
      (∀ px py, t.pixel px py = false) ∧ (∀ k, t.key k = false) ∧ t.cfg = c ∧ t.faultStatus = none

/-- `Reset` is accepted exactly for a well-formed configuration and ROM, and refused otherwise (00_scope.md R7, the spec's
decisions D10, D11 and D22, log 23). -/
def Obligations.ResetRefusesIllFormed : Prop :=
  ∀ (c : Config) (rom : List Byte) (s : State),
    let accepted := c.fontBase.toNat + 80 ≤ 4096 ∧
      (∀ a : Nat, ¬((c.fontBase.toNat ≤ a ∧ a < c.fontBase.toNat + 80) ∧ (0x200 ≤ a ∧ a < 0x200 + rom.length))) ∧
      1 ≤ c.screenW ∧ 1 ≤ c.screenH ∧ rom.length ≤ 3584
    (accepted → ∃ t, (Event.reset c rom).deliver s = .next t) ∧
    (¬accepted → ∃ r, (Event.reset c rom).deliver s = .refused r)

/-- `State.reset` is the machine after `Reset` with 00_scope.md R6's default sizes and font base and no ROM; its values are
those of 10_state.md R41, the spec's decision D9 (log 3). Its variant (log 1) and glyph bytes (log 2) are the model's choice
and are not stated here. -/
def Obligations.ResetStateValues : Prop :=
  (∀ r, State.reset.reg r = 0) ∧ State.reset.pc = 0x200 ∧ State.reset.i = 0 ∧ State.reset.stack = [] ∧
  State.reset.dt = 0 ∧ State.reset.st = 0 ∧ State.reset.screen = [] ∧ (∀ k, State.reset.key k = false) ∧
  State.reset.faultStatus = none ∧ State.reset.cfg.fontBase = 0x050 ∧ State.reset.cfg.screenW = 64 ∧
  State.reset.cfg.screenH = 32 ∧
  (∀ a, (a < 0x050 ∨ 0x0A0 ≤ a) → State.reset.peek a = 0) ∧
  (∀ s : State, ∃ t, (Event.reset Config.default []).deliver s = .next t ∧ SameExcept [.draws] State.reset t)

/-- A settled machine (70_reset_and_hazards.md R196, the spec's decision D19): no step changes any state, and ticks and
key events leave it settled. -/
def Obligations.SettledMachineStays : Prop :=
  ∀ (s : State) (a : Addr12), a.toNat < 4095 → s.SettledAt a →
    step s = .next s ∧
    ∀ (e : Event) (t : State), (∀ c rom, e ≠ .reset c rom) → e.deliver s = .next t → t.SettledAt a
end

