-- ==== Sys2Proof/Laws/Decode.lean ====
section
/-! SUPPORT. The fields of an encoded word are the fields it was made of (30_encoding.md R72, R73). -/

namespace Sys2Proof

/-! ## Bit fields of concatenations -/

theorem extract_low {m n : Nat} (a : BitVec m) (b : BitVec n) : (a ++ b).extractLsb' 0 n = b := by
  apply BitVec.eq_of_getLsbD_eq
  intro i hi
  simp [BitVec.getLsbD_append, hi]

theorem extract_high {m n : Nat} (a : BitVec m) (b : BitVec n) (k l : Nat) (hk : n ≤ k) :
    (a ++ b).extractLsb' k l = a.extractLsb' (k - n) l := by
  apply BitVec.eq_of_getLsbD_eq
  intro i hi
  have h1 : ¬k + i < n := by omega
  have h2 : k + i - n = k - n + i := by omega
  simp [BitVec.getLsbD_append, hi, h1, h2]

theorem extract_all {m : Nat} (a : BitVec m) : a.extractLsb' 0 m = a := by
  apply BitVec.eq_of_getLsbD_eq
  intro i hi
  simp [hi]

/-! ## Fields of encoded words -/

section
variable (f x y n : Nibble) (nn : Byte) (nnn : Addr12)

@[simp] theorem fieldF_wordNNN : fieldF (wordNNN f nnn) = f :=
  (extract_high f nnn 12 4 (by decide)).trans (extract_all f)

@[simp] theorem fieldX_wordNNN : fieldX (wordNNN f nnn) = topNibble nnn := by
  apply BitVec.eq_of_getLsbD_eq
  intro i hi
  have h : (f ++ nnn).getLsbD (8 + i) = nnn.getLsbD (8 + i) := by
    rw [BitVec.getLsbD_append, if_pos (by omega)]
  have h' := h
  simp only [fieldX, wordNNN, topNibble, BitVec.getLsbD_extractLsb']
  rw [← h']

@[simp] theorem fieldNNN_wordNNN : fieldNNN (wordNNN f nnn) = nnn := extract_low f nnn

@[simp] theorem fieldF_wordXNN : fieldF (wordXNN f x nn) = f :=
  (extract_high (f ++ x) nn 12 4 (by decide)).trans
    ((extract_high f x 4 4 (by decide)).trans (extract_all f))

@[simp] theorem fieldX_wordXNN : fieldX (wordXNN f x nn) = x :=
  (extract_high (f ++ x) nn 8 4 (by decide)).trans (extract_low f x)

@[simp] theorem fieldNN_wordXNN : fieldNN (wordXNN f x nn) = nn := extract_low (f ++ x) nn

@[simp] theorem fieldF_wordXYN : fieldF (wordXYN f x y n) = f :=
  (extract_high (f ++ x ++ y) n 12 4 (by decide)).trans
    ((extract_high (f ++ x) y 8 4 (by decide)).trans
      ((extract_high f x 4 4 (by decide)).trans (extract_all f)))

@[simp] theorem fieldX_wordXYN : fieldX (wordXYN f x y n) = x :=
  (extract_high (f ++ x ++ y) n 8 4 (by decide)).trans
    ((extract_high (f ++ x) y 4 4 (by decide)).trans (extract_low f x))

@[simp] theorem fieldY_wordXYN : fieldY (wordXYN f x y n) = y :=
  (extract_high (f ++ x ++ y) n 4 4 (by decide)).trans (extract_low (f ++ x) y)

@[simp] theorem fieldN_wordXYN : fieldN (wordXYN f x y n) = n := extract_low (f ++ x ++ y) n

end

/-! ## A word is made of its fields -/

theorem append_extract {m n : Nat} (w : BitVec (m + n)) : w.extractLsb' n m ++ w.extractLsb' 0 n = w := by
  apply BitVec.eq_of_getLsbD_eq
  intro i hi
  rw [BitVec.getLsbD_append]
  split
  · next h => simp [h]
  · next h =>
    have h1 : i - n < m := by omega
    have h2 : n + (i - n) = i := by omega
    simp [h1, h2]

theorem wordNNN_fields (op : Word) : wordNNN (fieldF op) (fieldNNN op) = op :=
  append_extract (m := 4) (n := 12) op

theorem extract_extract {w : Nat} (a : BitVec w) (k l i j : Nat) (h : i + j ≤ l) :
    (a.extractLsb' k l).extractLsb' i j = a.extractLsb' (k + i) j := by
  apply BitVec.eq_of_getLsbD_eq
  intro m hm
  have h1 : i + m < l := by omega
  simp [hm, h1, Nat.add_assoc]

theorem wordXNN_fields (op : Word) : wordXNN (fieldF op) (fieldX op) (fieldNN op) = op := by
  have h := append_extract (m := 8) (n := 8) op
  rw [← append_extract (m := 4) (n := 4) (op.extractLsb' 8 8), extract_extract _ _ _ _ _ (by decide),
    extract_extract _ _ _ _ _ (by decide)] at h
  exact h

theorem wordXYN_fields (op : Word) : wordXYN (fieldF op) (fieldX op) (fieldY op) (fieldN op) = op := by
  have h := append_extract (m := 12) (n := 4) op
  rw [← append_extract (m := 8) (n := 4) (op.extractLsb' 4 12), extract_extract _ _ _ _ _ (by decide),
    extract_extract _ _ _ _ _ (by decide), ← append_extract (m := 4) (n := 4) (op.extractLsb' (4 + 4) 8),
    extract_extract _ _ _ _ _ (by decide), extract_extract _ _ _ _ _ (by decide)] at h
  exact h

/-- The two bytes of a word make the word (20_memory.md R54, R55). -/
@[simp] theorem wordOfBytes_bytes (op : Word) : wordOfBytes (highByte op) (lowByte op) = op :=
  append_extract (m := 8) (n := 8) op

end Sys2Proof
end

