-- ==== Sys2Proof/Laws/Screen.lean ====
section
/-! SUPPORT. The screen as a canonical list: what a toggle, a sprite row and a sprite do to each pixel and to the
collision flag (44_display.md R152, R153), and that they keep the canonical form. -/

namespace Sys2Proof.Machine

theorem Screen.mem_insert (p q : Pixel) (l : Screen) : q ∈ Screen.insert p l ↔ q = p ∨ q ∈ l := by
  induction l with
  | nil => simp [Screen.insert]
  | cons d l ih =>
    by_cases h : Pixel.before p d
    · simp [Screen.insert, h]
    · simp only [Screen.insert, h, if_false, List.mem_cons, ih]
      tauto

/-- A toggle flips the pixel it names and no other. -/
theorem Screen.mem_toggle (p q : Pixel) (l : Screen) :
    q ∈ Screen.toggle p l ↔ if q = p then p ∉ l else q ∈ l := by
  unfold Screen.toggle
  by_cases hp : p ∈ l
  · by_cases hq : q = p <;> simp [hp, hq]
  · by_cases hq : q = p <;> simp [hp, hq, Screen.mem_insert]

theorem Pixel.before_trans {p q r : Pixel} (h : Pixel.before p q) (k : Pixel.before q r) : Pixel.before p r := by
  unfold Pixel.before at *
  omega

theorem Pixel.before_total {p q : Pixel} (h : ¬Pixel.before p q) (hne : q ≠ p) : Pixel.before q p := by
  have : ¬(q.1 = p.1 ∧ q.2 = p.2) := fun hh => hne (Prod.ext hh.1 hh.2)
  unfold Pixel.before at *
  omega

theorem Screen.insert_pairwise (p : Pixel) (l : Screen) (hl : l.Pairwise Pixel.before) (hp : p ∉ l) :
    (Screen.insert p l).Pairwise Pixel.before := by
  induction l with
  | nil => simp [Screen.insert]
  | cons d l ih =>
    obtain ⟨hd, hl⟩ := List.pairwise_cons.mp hl
    have hne : d ≠ p := fun h => hp (by simp [h])
    by_cases h : Pixel.before p d
    · rw [Screen.insert, if_pos h]
      refine List.pairwise_cons.mpr ⟨?_, List.pairwise_cons.mpr ⟨hd, hl⟩⟩
      intro q hq
      rcases List.mem_cons.mp hq with rfl | hq
      · exact h
      · exact Pixel.before_trans h (hd q hq)
    · rw [Screen.insert, if_neg h]
      refine List.pairwise_cons.mpr ⟨fun q hq => ?_, ih hl fun hh => hp (by simp [hh])⟩
      rcases (Screen.mem_insert p q l).mp hq with rfl | hq
      · exact Pixel.before_total h hne
      · exact hd q hq

/-- A toggle of a pixel on the screen keeps the canonical form. -/
theorem Screen.toggle_wf (c : Config) (p : Pixel) (l : Screen) (hp : p.1 < c.screenW ∧ p.2 < c.screenH)
    (h : Screen.wf c l) : Screen.wf c (Screen.toggle p l) := by
  refine ⟨?_, fun q hq => ?_⟩
  · unfold Screen.toggle
    split
    · exact h.1.filter _
    · next hn => exact Screen.insert_pairwise p l h.1 hn
  · by_cases hqp : q = p
    · exact hqp ▸ hp
    · exact h.2 q (by simpa [Screen.mem_toggle, hqp] using hq)

/-- One set sprite bit: the pixel it names flips when it is on the screen; it collides when it was on. -/
theorem mem_drawPixel (w h : Nat) (p q : Pixel) (acc : Screen × Bool) :
    q ∈ (drawPixel w h p acc).1 ↔ if q = p ∧ p.1 < w ∧ p.2 < h then p ∉ acc.1 else q ∈ acc.1 := by
  unfold drawPixel
  by_cases hp : p.1 < w ∧ p.2 < h
  · simp only [hp, and_self, if_true, Screen.mem_toggle, and_true]
  · simp [hp]

theorem drawPixel_hit (w h : Nat) (p : Pixel) (acc : Screen × Bool) :
    (drawPixel w h p acc).2 = (acc.2 || decide (p.1 < w ∧ p.2 < h ∧ p ∈ acc.1)) := by
  unfold drawPixel
  by_cases hp : p.1 < w ∧ p.2 < h
  · simp [hp]
  · have : ¬(p.1 < w ∧ p.2 < h ∧ p ∈ acc.1) := fun hh => hp ⟨hh.1, hh.2.1⟩
    simp [hp, this]

theorem drawPixel_wf (c : Config) (p : Pixel) (acc : Screen × Bool) (h : Screen.wf c acc.1) :
    Screen.wf c (drawPixel c.screenW c.screenH p acc).1 := by
  unfold drawPixel
  split
  · next hp => exact Screen.toggle_wf c p acc.1 hp h
  · exact h

/-- A sprite row over columns without repeats: a pixel flips exactly when a set bit of the row names it and it is on the
screen. -/
theorem mem_drawColumns (w h x0 py : Nat) (b : Byte) (q : Pixel) (cs : List Nat) (hcs : cs.Nodup)
    (acc : Screen × Bool) :
    q ∈ (drawColumns w h x0 py b cs acc).1 ↔
      if (∃ c ∈ cs, spriteBit b c = true ∧ q = (x0 + c, py)) ∧ q.1 < w ∧ q.2 < h then q ∉ acc.1 else q ∈ acc.1 := by
  induction cs generalizing acc with
  | nil => simp [drawColumns]
  | cons c cs ih =>
    obtain ⟨hc, hcs⟩ := List.nodup_cons.mp hcs
    rw [drawColumns, ih hcs]
    by_cases hb : spriteBit b c = true
    · by_cases hq : q = (x0 + c, py)
      · have hrest : ¬∃ d ∈ cs, spriteBit b d = true ∧ q = (x0 + d, py) := by
          rintro ⟨d, hd, -, hqd⟩
          rw [hq] at hqd
          have : c = d := by simpa using hqd
          exact hc (this ▸ hd)
        have hall : ∃ d ∈ c :: cs, spriteBit b d = true ∧ q = (x0 + d, py) := ⟨c, by simp, hb, hq⟩
        simp only [hrest, false_and, if_false, hall, true_and, hb, if_true, mem_drawPixel, ← hq]
      · have hiff : (∃ d ∈ c :: cs, spriteBit b d = true ∧ q = (x0 + d, py)) ↔
            ∃ d ∈ cs, spriteBit b d = true ∧ q = (x0 + d, py) := by simp [hq]
        simp only [hiff, hb, if_true, mem_drawPixel, hq, false_and, if_false]
    · have hiff : (∃ d ∈ c :: cs, spriteBit b d = true ∧ q = (x0 + d, py)) ↔
          ∃ d ∈ cs, spriteBit b d = true ∧ q = (x0 + d, py) := by simp [hb]
      simp only [hiff, hb, if_false, Bool.false_eq_true]

/-- A sprite row collides when a set bit of it names a pixel of the screen that was on before the row. -/
theorem drawColumns_hit (w h x0 py : Nat) (b : Byte) (cs : List Nat) (hcs : cs.Nodup) (acc : Screen × Bool) :
    (drawColumns w h x0 py b cs acc).2 = true ↔
      acc.2 = true ∨ ∃ c ∈ cs, spriteBit b c = true ∧ x0 + c < w ∧ py < h ∧ (x0 + c, py) ∈ acc.1 := by
  induction cs generalizing acc with
  | nil => simp [drawColumns]
  | cons c cs ih =>
    obtain ⟨hc, hcs⟩ := List.nodup_cons.mp hcs
    rw [drawColumns, ih hcs]
    by_cases hb : spriteBit b c = true
    · have hsame : ∀ d ∈ cs, ((x0 + d, py) ∈ (drawPixel w h (x0 + c, py) acc).1 ↔ (x0 + d, py) ∈ acc.1) := by
        intro d hd
        have hne : d ≠ c := fun hh => hc (hh ▸ hd)
        rw [mem_drawPixel, if_neg]
        rintro ⟨heq, -⟩
        exact hne (by simpa using heq)
      simp only [hb, if_true, drawPixel_hit, Bool.or_eq_true, decide_eq_true_eq, List.exists_mem_cons_iff, true_and]
      constructor
      · rintro ((h1 | h1) | ⟨d, hd, h2, h3, h4, h5⟩)
        · exact .inl h1
        · exact .inr (.inl h1)
        · exact .inr (.inr ⟨d, hd, h2, h3, h4, (hsame d hd).mp h5⟩)
      · rintro (h1 | h1 | ⟨d, hd, h2, h3, h4, h5⟩)
        · exact .inl (.inl h1)
        · exact .inl (.inr h1)
        · exact .inr ⟨d, hd, h2, h3, h4, (hsame d hd).mpr h5⟩
    · simp [hb]

theorem drawColumns_wf (c : Config) (x0 py : Nat) (b : Byte) (cs : List Nat) (acc : Screen × Bool)
    (h : Screen.wf c acc.1) : Screen.wf c (drawColumns c.screenW c.screenH x0 py b cs acc).1 := by
  induction cs generalizing acc with
  | nil => exact h
  | cons d cs ih =>
    rw [drawColumns]
    refine ih _ ?_
    split
    · exact drawPixel_wf c _ acc h
    · exact h

theorem drawSprite_wf (c : Config) (x0 y0 : Nat) (bytes : List Byte) (acc : Screen × Bool)
    (h : Screen.wf c acc.1) : Screen.wf c (drawSprite c.screenW c.screenH x0 y0 bytes acc).1 := by
  induction bytes generalizing y0 acc with
  | nil => exact h
  | cons b bytes ih => exact ih _ _ (drawColumns_wf c x0 y0 b _ acc h)

end Sys2Proof.Machine
end

