-- ==== Sys2Proof/Laws/Sprite.lean ====
section
/-! SUPPORT. A whole sprite: which pixels it flips and when it collides (44_display.md R152, R153), in the words of
Safety.lean. -/

namespace Sys2Proof.Machine

/-- The pixels of one row are those of a one-row sprite. -/
theorem row_covers (x0 y0 : Nat) (b : Byte) (bs : List Byte) (px py : Nat) :
    spriteCovers x0 y0 (b :: bs) px py = true ↔
      (∃ c ∈ List.range 8, spriteBit b c = true ∧ (px, py) = (x0 + c, y0)) ∨
        spriteCovers x0 (y0 + 1) bs px py = true := by
  simp only [spriteCovers, List.length_cons, Bool.and_eq_true, decide_eq_true_eq, List.mem_range, Prod.mk.injEq]
  constructor
  · rintro ⟨⟨h1, h2, h3, h4⟩, hb⟩
    by_cases hy : py = y0
    · refine .inl ⟨px - x0, by omega, ?_, by omega, hy⟩
      simpa [hy] using hb
    · refine .inr ⟨⟨h1, h2, by omega, by omega⟩, ?_⟩
      have : py - y0 = (py - (y0 + 1)) + 1 := by omega
      rwa [this, List.getD_cons_succ] at hb
  · rintro (⟨c, hc, hb, hx, hy⟩ | ⟨⟨h1, h2, h3, h4⟩, hb⟩)
    · refine ⟨⟨by omega, by omega, by omega, by omega⟩, ?_⟩
      have hx' : px - x0 = c := by omega
      simpa [hy, hx'] using hb
    · refine ⟨⟨h1, h2, by omega, by omega⟩, ?_⟩
      have : py - y0 = (py - (y0 + 1)) + 1 := by omega
      rwa [this, List.getD_cons_succ]

theorem covers_below (x0 y0 : Nat) (bs : List Byte) (px : Nat) : spriteCovers x0 (y0 + 1) bs px y0 = false := by
  simp [spriteCovers]

/-- A sprite flips exactly the pixels of the screen that its set bits cover. -/
theorem mem_drawSprite (w h x0 y0 : Nat) (bytes : List Byte) (acc : Screen × Bool) (px py : Nat) :
    (px, py) ∈ (drawSprite w h x0 y0 bytes acc).1 ↔
      if spriteCovers x0 y0 bytes px py = true ∧ px < w ∧ py < h then (px, py) ∉ acc.1 else (px, py) ∈ acc.1 := by
  induction bytes generalizing y0 acc with
  | nil => simp [drawSprite, spriteCovers]
  | cons b bs ih =>
    rw [drawSprite, ih, mem_drawColumns _ _ _ _ _ _ _ List.nodup_range]
    simp only [row_covers]
    by_cases hrow : ∃ c ∈ List.range 8, spriteBit b c = true ∧ (px, py) = (x0 + c, y0)
    · have hy : py = y0 := by
        obtain ⟨c, -, -, hq⟩ := hrow
        exact (Prod.mk.inj hq).2
      subst hy
      simp only [covers_below, Bool.false_eq_true, false_and, if_false, hrow, true_and, true_or]
    · simp only [hrow, false_and, if_false, false_or]

/-- A sprite collides exactly when a set bit of it covers a pixel of the screen that was on. -/
theorem drawSprite_hit (w h x0 y0 : Nat) (bytes : List Byte) (acc : Screen × Bool) :
    (drawSprite w h x0 y0 bytes acc).2 = true ↔
      acc.2 = true ∨ ∃ px py, spriteCovers x0 y0 bytes px py = true ∧ px < w ∧ py < h ∧ (px, py) ∈ acc.1 := by
  induction bytes generalizing y0 acc with
  | nil => simp [drawSprite, spriteCovers]
  | cons b bs ih =>
    rw [drawSprite, ih, drawColumns_hit _ _ _ _ _ _ List.nodup_range]
    have hkeep : ∀ px py, spriteCovers x0 (y0 + 1) bs px py = true →
        ((px, py) ∈ (drawColumns w h x0 y0 b (List.range 8) acc).1 ↔ (px, py) ∈ acc.1) := by
      intro px py hc
      rw [mem_drawColumns _ _ _ _ _ _ _ List.nodup_range, if_neg]
      rintro ⟨⟨c, -, -, hq⟩, -⟩
      rw [(Prod.mk.inj hq).2, covers_below] at hc
      exact absurd hc (by simp)
    constructor
    · rintro ((h1 | ⟨c, hc, hb, hw, hh, hm⟩) | ⟨px, py, hc, hw, hh, hm⟩)
      · exact .inl h1
      · exact .inr ⟨x0 + c, y0, (row_covers ..).mpr (.inl ⟨c, hc, hb, rfl⟩), hw, hh, hm⟩
      · exact .inr ⟨px, py, (row_covers ..).mpr (.inr hc), hw, hh, (hkeep px py hc).mp hm⟩
    · rintro (h1 | ⟨px, py, hc, hw, hh, hm⟩)
      · exact .inl (.inl h1)
      · rcases (row_covers ..).mp hc with ⟨c, hc8, hb, hq⟩ | hc
        · obtain ⟨rfl, rfl⟩ := Prod.mk.inj hq
          exact .inl (.inr ⟨c, hc8, hb, hw, hh, hm⟩)
        · exact .inr ⟨px, py, hc, hw, hh, (hkeep px py hc).mpr hm⟩

end Sys2Proof.Machine
end

