-- ==== Sys2Proof/Laws/Memory.lean ====
section
/-! SUPPORT. Memory as a canonical list: a read after a write (20_memory.md R52, R53), and that every write keeps the
canonical form. -/

namespace Sys2Proof.Machine

theorem Memory.read_insert_of_ne (c : Config) (a : Nat) (w : Byte) (m : Memory) (b : Nat) (h : b ≠ a) :
    Memory.read c (Memory.insert a w m) b = Memory.read c m b := by
  induction m with
  | nil => simp [Memory.insert, Memory.read, h]
  | cons e m ih =>
    obtain ⟨d, x⟩ := e
    by_cases hd : a < d
    · simp [Memory.insert, Memory.read, hd, h]
    · simp [Memory.insert, Memory.read, hd, ih]

theorem Memory.read_insert_self (c : Config) (a : Nat) (w : Byte) (m : Memory) (h : ∀ e ∈ m, e.1 ≠ a) :
    Memory.read c (Memory.insert a w m) a = w := by
  induction m with
  | nil => simp [Memory.insert, Memory.read]
  | cons e m ih =>
    obtain ⟨d, x⟩ := e
    have hd : a ≠ d := fun hh => h (d, x) (by simp) hh.symm
    by_cases hlt : a < d
    · simp [Memory.insert, Memory.read, hlt]
    · simp [Memory.insert, Memory.read, hlt, hd, ih (fun e he => h e (by simp [he]))]

theorem Memory.read_filter_self (c : Config) (a : Nat) (m : Memory) :
    Memory.read c (m.filter (fun e => e.1 ≠ a)) a = resetByte c a := by
  induction m with
  | nil => rfl
  | cons e m ih =>
    obtain ⟨d, x⟩ := e
    by_cases hd : d = a
    · simpa [hd] using ih
    · have hd' : a ≠ d := fun h => hd h.symm
      simpa [hd, Memory.read, hd'] using ih

theorem Memory.read_filter_of_ne (c : Config) (a : Nat) (m : Memory) (b : Nat) (h : b ≠ a) :
    Memory.read c (m.filter (fun e => e.1 ≠ a)) b = Memory.read c m b := by
  induction m with
  | nil => rfl
  | cons e m ih =>
    obtain ⟨d, x⟩ := e
    by_cases hd : d = a
    · subst hd
      simpa [Memory.read, h] using ih
    · simp only [ne_eq, hd, not_false_eq_true, decide_true, List.filter_cons_of_pos, Memory.read]
      split
      · rfl
      · simpa using ih

/-- What a read sees after a write: the byte written at that address, what was there at every other. -/
theorem Memory.read_write (c : Config) (m : Memory) (a : Nat) (w : Byte) (b : Nat) :
    Memory.read c (Memory.write c m a w) b = if b = a then w else Memory.read c m b := by
  unfold Memory.write
  by_cases hb : b = a
  · subst hb
    split
    · next hw => simp only [Memory.read_filter_self, if_true, hw]
    · simpa using Memory.read_insert_self c b w _ (by simp)
  · split
    · rw [Memory.read_filter_of_ne c a m b hb]
    · rw [Memory.read_insert_of_ne c a w _ b hb, Memory.read_filter_of_ne c a m b hb]

theorem Memory.mem_insert (a : Nat) (w : Byte) (m : Memory) (e : Host.Cell) :
    e ∈ Memory.insert a w m ↔ e = (a, w) ∨ e ∈ m := by
  induction m with
  | nil => simp [Memory.insert]
  | cons d m ih =>
    by_cases h : a < d.1
    · simp [Memory.insert, h]
    · simp only [Memory.insert, h, if_false, List.mem_cons, ih]
      tauto

theorem Memory.insert_pairwise (a : Nat) (w : Byte) (m : Memory) (hm : m.Pairwise (fun p q => p.1 < q.1))
    (ha : ∀ e ∈ m, e.1 ≠ a) : (Memory.insert a w m).Pairwise (fun p q => p.1 < q.1) := by
  induction m with
  | nil => simp [Memory.insert]
  | cons d m ih =>
    obtain ⟨hd, hm⟩ := List.pairwise_cons.mp hm
    have hne : d.1 ≠ a := ha d (by simp)
    by_cases h : a < d.1
    · simp only [Memory.insert, h, if_true, List.pairwise_cons, List.mem_cons]
      refine ⟨?_, hd, hm⟩
      rintro q (rfl | hq)
      · exact h
      · exact h.trans (hd q hq)
    · simp only [Memory.insert, h, if_false, List.pairwise_cons]
      refine ⟨fun q hq => ?_, ih hm fun e he => ha e (by simp [he])⟩
      rcases (Memory.mem_insert a w m q).mp hq with rfl | hq
      · show d.1 < a
        omega
      · exact hd q hq

/-- Writing a byte in range keeps the canonical form. -/
theorem Memory.write_wf (c : Config) (m : Memory) (a : Nat) (w : Byte) (ha : a < memSize) (h : Memory.wf c m) :
    Memory.wf c (Memory.write c m a w) := by
  have hf : (m.filter (fun e => e.1 ≠ a)).Pairwise (fun p q => p.1 < q.1) := h.1.filter _
  unfold Memory.write
  split
  · exact ⟨hf, fun e he => h.2 e (List.mem_filter.mp he).1⟩
  · next hw =>
    refine ⟨Memory.insert_pairwise a w _ hf (by simp), fun e he => ?_⟩
    rcases (Memory.mem_insert a w _ e).mp he with rfl | he
    · exact ⟨ha, hw⟩
    · exact h.2 e (List.mem_filter.mp he).1

theorem Memory.wf_nil (c : Config) : Memory.wf c [] := by simp [Memory.wf]

end Sys2Proof.Machine
end

