-- ==== Sys2Proof/Laws/State.lean ====
section
/-! SUPPORT. The small lemmas of the state's updates: what each update leaves in each field, and what each reader
(`reg`, `peek`, `key`, `pixel`) sees of it, so that no proof unfolds a record update. -/

namespace Sys2Proof.Machine

/-! ## Fields under updates -/

section setReg
variable (s : State) (r : Nibble) (b : Byte)
@[simp] theorem State.setReg_pc : (s.setReg r b).pc = s.pc := rfl
@[simp] theorem State.setReg_i : (s.setReg r b).i = s.i := rfl
@[simp] theorem State.setReg_stack : (s.setReg r b).stack = s.stack := rfl
@[simp] theorem State.setReg_dt : (s.setReg r b).dt = s.dt := rfl
@[simp] theorem State.setReg_st : (s.setReg r b).st = s.st := rfl
@[simp] theorem State.setReg_mem : (s.setReg r b).mem = s.mem := rfl
@[simp] theorem State.setReg_screen : (s.setReg r b).screen = s.screen := rfl
@[simp] theorem State.setReg_keys : (s.setReg r b).keys = s.keys := rfl
@[simp] theorem State.setReg_cfg : (s.setReg r b).cfg = s.cfg := rfl
@[simp] theorem State.setReg_faultStatus : (s.setReg r b).faultStatus = s.faultStatus := rfl
@[simp] theorem State.setReg_draws : (s.setReg r b).draws = s.draws := rfl
@[simp] theorem State.setReg_peek (q : Nat) : (s.setReg r b).peek q = s.peek q := rfl
@[simp] theorem State.setReg_key (q : Nibble) : (s.setReg r b).key q = s.key q := rfl
@[simp] theorem State.setReg_pixel (q q2 : Nat) : (s.setReg r b).pixel q q2 = s.pixel q q2 := rfl
end setReg

section setPc
variable (s : State) (w : Word)
@[simp] theorem State.setPc_v : (s.setPc w).v = s.v := rfl
@[simp] theorem State.setPc_pc : (s.setPc w).pc = w := rfl
@[simp] theorem State.setPc_i : (s.setPc w).i = s.i := rfl
@[simp] theorem State.setPc_stack : (s.setPc w).stack = s.stack := rfl
@[simp] theorem State.setPc_dt : (s.setPc w).dt = s.dt := rfl
@[simp] theorem State.setPc_st : (s.setPc w).st = s.st := rfl
@[simp] theorem State.setPc_mem : (s.setPc w).mem = s.mem := rfl
@[simp] theorem State.setPc_screen : (s.setPc w).screen = s.screen := rfl
@[simp] theorem State.setPc_keys : (s.setPc w).keys = s.keys := rfl
@[simp] theorem State.setPc_cfg : (s.setPc w).cfg = s.cfg := rfl
@[simp] theorem State.setPc_faultStatus : (s.setPc w).faultStatus = s.faultStatus := rfl
@[simp] theorem State.setPc_draws : (s.setPc w).draws = s.draws := rfl
@[simp] theorem State.setPc_reg (q : Nibble) : (s.setPc w).reg q = s.reg q := rfl
@[simp] theorem State.setPc_peek (q : Nat) : (s.setPc w).peek q = s.peek q := rfl
@[simp] theorem State.setPc_key (q : Nibble) : (s.setPc w).key q = s.key q := rfl
@[simp] theorem State.setPc_pixel (q q2 : Nat) : (s.setPc w).pixel q q2 = s.pixel q q2 := rfl
end setPc

section setIndex
variable (s : State) (w : Word)
@[simp] theorem State.setIndex_v : (s.setIndex w).v = s.v := rfl
@[simp] theorem State.setIndex_pc : (s.setIndex w).pc = s.pc := rfl
@[simp] theorem State.setIndex_i : (s.setIndex w).i = w := rfl
@[simp] theorem State.setIndex_stack : (s.setIndex w).stack = s.stack := rfl
@[simp] theorem State.setIndex_dt : (s.setIndex w).dt = s.dt := rfl
@[simp] theorem State.setIndex_st : (s.setIndex w).st = s.st := rfl
@[simp] theorem State.setIndex_mem : (s.setIndex w).mem = s.mem := rfl
@[simp] theorem State.setIndex_screen : (s.setIndex w).screen = s.screen := rfl
@[simp] theorem State.setIndex_keys : (s.setIndex w).keys = s.keys := rfl
@[simp] theorem State.setIndex_cfg : (s.setIndex w).cfg = s.cfg := rfl
@[simp] theorem State.setIndex_faultStatus : (s.setIndex w).faultStatus = s.faultStatus := rfl
@[simp] theorem State.setIndex_draws : (s.setIndex w).draws = s.draws := rfl
@[simp] theorem State.setIndex_reg (q : Nibble) : (s.setIndex w).reg q = s.reg q := rfl
@[simp] theorem State.setIndex_peek (q : Nat) : (s.setIndex w).peek q = s.peek q := rfl
@[simp] theorem State.setIndex_key (q : Nibble) : (s.setIndex w).key q = s.key q := rfl
@[simp] theorem State.setIndex_pixel (q q2 : Nat) : (s.setIndex w).pixel q q2 = s.pixel q q2 := rfl
end setIndex

section setDelay
variable (s : State) (b : Byte)
@[simp] theorem State.setDelay_v : (s.setDelay b).v = s.v := rfl
@[simp] theorem State.setDelay_pc : (s.setDelay b).pc = s.pc := rfl
@[simp] theorem State.setDelay_i : (s.setDelay b).i = s.i := rfl
@[simp] theorem State.setDelay_stack : (s.setDelay b).stack = s.stack := rfl
@[simp] theorem State.setDelay_dt : (s.setDelay b).dt = b := rfl
@[simp] theorem State.setDelay_st : (s.setDelay b).st = s.st := rfl
@[simp] theorem State.setDelay_mem : (s.setDelay b).mem = s.mem := rfl
@[simp] theorem State.setDelay_screen : (s.setDelay b).screen = s.screen := rfl
@[simp] theorem State.setDelay_keys : (s.setDelay b).keys = s.keys := rfl
@[simp] theorem State.setDelay_cfg : (s.setDelay b).cfg = s.cfg := rfl
@[simp] theorem State.setDelay_faultStatus : (s.setDelay b).faultStatus = s.faultStatus := rfl
@[simp] theorem State.setDelay_draws : (s.setDelay b).draws = s.draws := rfl
@[simp] theorem State.setDelay_reg (q : Nibble) : (s.setDelay b).reg q = s.reg q := rfl
@[simp] theorem State.setDelay_peek (q : Nat) : (s.setDelay b).peek q = s.peek q := rfl
@[simp] theorem State.setDelay_key (q : Nibble) : (s.setDelay b).key q = s.key q := rfl
@[simp] theorem State.setDelay_pixel (q q2 : Nat) : (s.setDelay b).pixel q q2 = s.pixel q q2 := rfl
end setDelay

section setSound
variable (s : State) (b : Byte)
@[simp] theorem State.setSound_v : (s.setSound b).v = s.v := rfl
@[simp] theorem State.setSound_pc : (s.setSound b).pc = s.pc := rfl
@[simp] theorem State.setSound_i : (s.setSound b).i = s.i := rfl
@[simp] theorem State.setSound_stack : (s.setSound b).stack = s.stack := rfl
@[simp] theorem State.setSound_dt : (s.setSound b).dt = s.dt := rfl
@[simp] theorem State.setSound_st : (s.setSound b).st = b := rfl
@[simp] theorem State.setSound_mem : (s.setSound b).mem = s.mem := rfl
@[simp] theorem State.setSound_screen : (s.setSound b).screen = s.screen := rfl
@[simp] theorem State.setSound_keys : (s.setSound b).keys = s.keys := rfl
@[simp] theorem State.setSound_cfg : (s.setSound b).cfg = s.cfg := rfl
@[simp] theorem State.setSound_faultStatus : (s.setSound b).faultStatus = s.faultStatus := rfl
@[simp] theorem State.setSound_draws : (s.setSound b).draws = s.draws := rfl
@[simp] theorem State.setSound_reg (q : Nibble) : (s.setSound b).reg q = s.reg q := rfl
@[simp] theorem State.setSound_peek (q : Nat) : (s.setSound b).peek q = s.peek q := rfl
@[simp] theorem State.setSound_key (q : Nibble) : (s.setSound b).key q = s.key q := rfl
@[simp] theorem State.setSound_pixel (q q2 : Nat) : (s.setSound b).pixel q q2 = s.pixel q q2 := rfl
end setSound

section countDraw
variable (s : State)
@[simp] theorem State.countDraw_v : (s.countDraw).v = s.v := rfl
@[simp] theorem State.countDraw_pc : (s.countDraw).pc = s.pc := rfl
@[simp] theorem State.countDraw_i : (s.countDraw).i = s.i := rfl
@[simp] theorem State.countDraw_stack : (s.countDraw).stack = s.stack := rfl
@[simp] theorem State.countDraw_dt : (s.countDraw).dt = s.dt := rfl
@[simp] theorem State.countDraw_st : (s.countDraw).st = s.st := rfl
@[simp] theorem State.countDraw_mem : (s.countDraw).mem = s.mem := rfl
@[simp] theorem State.countDraw_screen : (s.countDraw).screen = s.screen := rfl
@[simp] theorem State.countDraw_keys : (s.countDraw).keys = s.keys := rfl
@[simp] theorem State.countDraw_cfg : (s.countDraw).cfg = s.cfg := rfl
@[simp] theorem State.countDraw_faultStatus : (s.countDraw).faultStatus = s.faultStatus := rfl
@[simp] theorem State.countDraw_draws : (s.countDraw).draws = s.draws + 1 := rfl
@[simp] theorem State.countDraw_reg (q : Nibble) : (s.countDraw).reg q = s.reg q := rfl
@[simp] theorem State.countDraw_peek (q : Nat) : (s.countDraw).peek q = s.peek q := rfl
@[simp] theorem State.countDraw_key (q : Nibble) : (s.countDraw).key q = s.key q := rfl
@[simp] theorem State.countDraw_pixel (q q2 : Nat) : (s.countDraw).pixel q q2 = s.pixel q q2 := rfl
end countDraw

section poke
variable (s : State) (a : Nat) (w : Byte)
@[simp] theorem State.poke_v : (s.poke a w).v = s.v := rfl
@[simp] theorem State.poke_pc : (s.poke a w).pc = s.pc := rfl
@[simp] theorem State.poke_i : (s.poke a w).i = s.i := rfl
@[simp] theorem State.poke_stack : (s.poke a w).stack = s.stack := rfl
@[simp] theorem State.poke_dt : (s.poke a w).dt = s.dt := rfl
@[simp] theorem State.poke_st : (s.poke a w).st = s.st := rfl
@[simp] theorem State.poke_mem : (s.poke a w).mem = Memory.write s.cfg s.mem a w := rfl
@[simp] theorem State.poke_screen : (s.poke a w).screen = s.screen := rfl
@[simp] theorem State.poke_keys : (s.poke a w).keys = s.keys := rfl
@[simp] theorem State.poke_cfg : (s.poke a w).cfg = s.cfg := rfl
@[simp] theorem State.poke_faultStatus : (s.poke a w).faultStatus = s.faultStatus := rfl
@[simp] theorem State.poke_draws : (s.poke a w).draws = s.draws := rfl
@[simp] theorem State.poke_reg (q : Nibble) : (s.poke a w).reg q = s.reg q := rfl
@[simp] theorem State.poke_key (q : Nibble) : (s.poke a w).key q = s.key q := rfl
@[simp] theorem State.poke_pixel (q q2 : Nat) : (s.poke a w).pixel q q2 = s.pixel q q2 := rfl
end poke

section setKey
variable (s : State) (k : Nibble) (b : Bool)
@[simp] theorem State.setKey_v : (s.setKey k b).v = s.v := rfl
@[simp] theorem State.setKey_pc : (s.setKey k b).pc = s.pc := rfl
@[simp] theorem State.setKey_i : (s.setKey k b).i = s.i := rfl
@[simp] theorem State.setKey_stack : (s.setKey k b).stack = s.stack := rfl
@[simp] theorem State.setKey_dt : (s.setKey k b).dt = s.dt := rfl
@[simp] theorem State.setKey_st : (s.setKey k b).st = s.st := rfl
@[simp] theorem State.setKey_mem : (s.setKey k b).mem = s.mem := rfl
@[simp] theorem State.setKey_screen : (s.setKey k b).screen = s.screen := rfl
@[simp] theorem State.setKey_cfg : (s.setKey k b).cfg = s.cfg := rfl
@[simp] theorem State.setKey_faultStatus : (s.setKey k b).faultStatus = s.faultStatus := rfl
@[simp] theorem State.setKey_draws : (s.setKey k b).draws = s.draws := rfl
@[simp] theorem State.setKey_reg (q : Nibble) : (s.setKey k b).reg q = s.reg q := rfl
@[simp] theorem State.setKey_peek (q : Nat) : (s.setKey k b).peek q = s.peek q := rfl
@[simp] theorem State.setKey_pixel (q q2 : Nat) : (s.setKey k b).pixel q q2 = s.pixel q q2 := rfl
end setKey

/-! ## Readers under their own updates -/

@[simp] theorem State.reg_setReg (s : State) (r : Nibble) (b : Byte) (q : Nibble) :
    (s.setReg r b).reg q = if q = r then b else s.reg q := by
  simp only [State.reg, State.setReg, Vector.getElem_set, BitVec.toNat_inj, eq_comm]

@[simp] theorem State.key_setKey (s : State) (k : Nibble) (b : Bool) (q : Nibble) :
    (s.setKey k b).key q = if q = k then b else s.key q := by
  simp only [State.key, State.setKey, Vector.getElem_set, BitVec.toNat_inj, eq_comm]

@[simp] theorem State.peek_poke (s : State) (a : Nat) (w : Byte) (b : Nat) :
    (s.poke a w).peek b = if b = a then w else s.peek b :=
  Memory.read_write s.cfg s.mem a w b

/-! ## The compound updates -/

theorem State.advance_eq (s : State) : s.advance = s.setPc (s.pc + 2) := rfl

theorem State.setFlag_eq (s : State) (b : Bool) : s.setFlag b = s.setReg vf (flagByte b) := rfl

theorem State.setRegFlag_eq (s : State) (x : Nibble) (r : Byte) (b : Bool) :
    s.setRegFlag x r b = (s.setReg x r).setReg vf (flagByte b) := rfl

theorem State.skipIf_eq (s : State) (c : Bool) : s.skipIf c = s.setPc (if c then s.pc + 2 else s.pc) := by
  cases c <;> rfl

theorem State.advanceIndex_eq (s : State) (x : Nibble) :
    s.advanceIndex x = s.setIndex (match s.cfg.variant with
      | .cosmacVip => BitVec.ofNat 16 (s.i.toNat + x.toNat + 1)
      | .chip48 => s.i) := by
  unfold State.advanceIndex
  cases s.cfg.variant <;> rfl

@[simp] theorem State.setPc_setPc (s : State) (w u : Word) : (s.setPc w).setPc u = s.setPc u := rfl

@[simp] theorem State.setPc_self (s : State) : s.setPc s.pc = s := rfl

/-- Moving `pc` back undoes the fetch advance. -/
theorem State.advance_back (s : State) : s.advance.setPc (s.advance.pc - 2) = s := by
  simp [State.advance_eq]

@[simp] theorem State.raise_eq (s : State) (f : Fault) :
    s.raise f = .next { s with faultStatus := some f } := rfl

@[simp] theorem settle_ok (t : State) : settle (.ok t) = .next t := rfl

@[simp] theorem settle_error (f : Fault) (t : State) : settle (.error (f, t)) = t.raise f := rfl

end Sys2Proof.Machine
end

