-- ==== Sys2Proof/Laws/Ops.lean ====
section
/-! SUPPORT. For each shared operation over memory, stack and keypad, one lemma that says all it can do. -/

namespace Sys2Proof.Machine

/-! ## Single bytes (20_memory.md R52, R53) -/

theorem State.readByte_in (s : State) {a : Nat} (h : a < memSize) : s.readByte a = .ok (s.peek a) := by
  simp [State.readByte, h]

theorem State.readByte_out (s : State) {a : Nat} (h : memSize ≤ a) :
    s.readByte a = .error (.invalidMemoryAddress a) := by
  simp [State.readByte, Nat.not_lt.mpr h]

theorem State.writeByte_in (s : State) {a : Nat} (w : Byte) (h : a < memSize) :
    s.writeByte a w = .ok (s.poke a w) := by
  simp [State.writeByte, h]

theorem State.writeByte_out (s : State) {a : Nat} (w : Byte) (h : memSize ≤ a) :
    s.writeByte a w = .error (.invalidMemoryAddress a) := by
  simp [State.writeByte, Nat.not_lt.mpr h]

/-! ## Fetch (20_memory.md R54) -/

/-- A fetch reads the word at `pc`, or reports the first of its two addresses that is out of range. -/
theorem State.fetch_eq (s : State) : s.fetch =
    if s.pc.toNat + 1 < memSize then .ok (s.wordAt s.pc.toNat)
    else .error (.invalidMemoryAddress (max s.pc.toNat memSize)) := by
  unfold State.fetch
  by_cases h : s.pc.toNat + 1 < memSize
  · rw [State.readByte_in s (Nat.lt_of_succ_lt h), State.readByte_in s h, if_pos h]
    rfl
  · rw [if_neg h]
    by_cases h0 : s.pc.toNat < memSize
    · have : s.pc.toNat + 1 = memSize := by omega
      rw [State.readByte_in s h0, State.readByte_out s (Nat.not_lt.mp h)]
      simp [this, Nat.le_of_lt h0]
    · rw [State.readByte_out s (Nat.not_lt.mp h0), Nat.max_eq_left (Nat.not_lt.mp h0)]

/-! ## Several bytes, all read first (44_display.md R151) -/

theorem State.bytesAt_succ (s : State) (a n : Nat) :
    s.bytesAt a (n + 1) = s.peek a :: s.bytesAt (a + 1) n := by
  simp [State.bytesAt, List.range_succ_eq_map, Function.comp_def, Nat.add_comm 1, Nat.add_assoc]

/-- Reading `n` bytes answers them all when the last is in range, and else the first address out of range. -/
theorem State.readBytes_eq (s : State) (a n : Nat) : s.readBytes a n =
    if n = 0 ∨ a + n ≤ memSize then .ok (s.bytesAt a n)
    else .error (.invalidMemoryAddress (max a memSize)) := by
  induction n generalizing a with
  | zero => simp [State.readBytes, State.bytesAt]
  | succ n ih =>
    rw [State.readBytes]
    by_cases ha : a < memSize
    · rw [State.readByte_in s ha]
      simp only [ih]
      by_cases hn : a + (n + 1) ≤ memSize
      · rw [if_pos (.inr (by omega)), if_pos (.inr hn), State.bytesAt_succ]
      · rw [if_neg (by omega), if_neg (by omega), Nat.max_eq_right (by omega), Nat.max_eq_right (by omega)]
    · rw [State.readByte_out s (Nat.not_lt.mp ha), if_neg (by omega), Nat.max_eq_left (Nat.not_lt.mp ha)]

/-! ## Several bytes written in ascending order (60_exceptions.md R177) -/

/-- Writing bytes in range succeeds, changes only memory, and each byte then reads as written. -/
theorem State.writeBytes_ok (s : State) (a : Nat) (bs : List Byte) (h : bs = [] ∨ a + bs.length ≤ memSize) :
    ∃ t, s.writeBytes a bs = .ok t ∧ t = { s with mem := t.mem } ∧
      (Memory.wf s.cfg s.mem → Memory.wf s.cfg t.mem) ∧
      ∀ b, t.peek b = if a ≤ b ∧ b < a + bs.length then bs.getD (b - a) 0 else s.peek b := by
  induction bs generalizing s a with
  | nil => exact ⟨s, rfl, rfl, id, by intro b; simp⟩
  | cons w bs ih =>
    simp only [reduceCtorEq, List.length_cons, false_or] at h
    obtain ⟨t, ht, hfr, hwf, hpk⟩ := ih (s.poke a w) (a + 1) (by rcases bs with _ | _ <;> simp at h ⊢; omega)
    refine ⟨t, ?_, hfr.trans rfl, fun hm => hwf (Memory.write_wf _ _ _ _ (by omega) hm), fun b => ?_⟩
    · rw [State.writeBytes, State.writeByte_in s w (by omega)]
      exact ht
    · rw [hpk, State.peek_poke, List.length_cons]
      by_cases hb : b = a
      · subst hb
        rw [if_neg (by omega), if_pos rfl, if_pos (by omega)]
        simp
      · by_cases hin : a + 1 ≤ b ∧ b < a + 1 + bs.length
        · have : b - a = (b - (a + 1)) + 1 := by omega
          rw [if_pos hin, if_pos (by omega), this, List.getD_cons_succ]
        · rw [if_neg hin, if_neg hb, if_neg (by omega)]

/-- Writing past the end of memory reports the first address out of range, and has changed memory only: the bytes of the
block that lie in memory are written. -/
theorem State.writeBytes_error (s : State) (a : Nat) (bs : List Byte) (h : bs ≠ []) (hout : memSize < a + bs.length) :
    ∃ t, s.writeBytes a bs = .error (.invalidMemoryAddress (max a memSize), t) ∧ t = { s with mem := t.mem } ∧
      (Memory.wf s.cfg s.mem → Memory.wf s.cfg t.mem) ∧
      ∀ b, t.peek b = if a ≤ b ∧ b < memSize then bs.getD (b - a) 0 else s.peek b := by
  induction bs generalizing s a with
  | nil => exact absurd rfl h
  | cons w bs ih =>
    rw [State.writeBytes]
    by_cases ha : a < memSize
    · rw [State.writeByte_in s w ha]
      have hne : bs ≠ [] := by
        rintro rfl
        simp at hout
        omega
      obtain ⟨t, ht, hfr, hwf, hpk⟩ := ih (s.poke a w) (a + 1) hne (by simp at hout; omega)
      refine ⟨t, ?_, hfr.trans rfl, fun hm => hwf (Memory.write_wf _ _ _ _ ha hm), fun b => ?_⟩
      · simp only [ht]
        rw [Nat.max_eq_right (by omega), Nat.max_eq_right (by omega)]
      · rw [hpk, State.peek_poke]
        by_cases hb : b = a
        · subst hb
          rw [if_neg (by omega), if_pos rfl, if_pos (by omega)]
          simp
        · by_cases hin : a + 1 ≤ b ∧ b < memSize
          · have : b - a = (b - (a + 1)) + 1 := by omega
            rw [if_pos hin, if_pos (by omega), this, List.getD_cons_succ]
          · rw [if_neg hin, if_neg hb, if_neg (by omega)]
    · rw [State.writeByte_out s w (Nat.not_lt.mp ha)]
      exact ⟨s, by simp [Nat.max_eq_left (Nat.not_lt.mp ha)], rfl, id, fun b => by rw [if_neg (by omega)]⟩

/-! ## Registers loaded in ascending order (43_index_memory.md R145) -/

/-- `n` registers from number `k` up. -/
def regsFrom (k n : Nat) : List Nibble := (List.range' k n).map (BitVec.ofNat 4)

theorem registersUpTo_eq (x : Nibble) : registersUpTo x = regsFrom 0 (x.toNat + 1) := by
  simp [registersUpTo, regsFrom, List.range_eq_range']

/-- Loading registers from bytes in range succeeds, changes only registers, and each holds the byte at its place. -/
theorem State.loadRegs_ok (s : State) (a k n : Nat) (hk : k + n ≤ 16) (h : n = 0 ∨ a + n ≤ memSize) :
    ∃ t, s.loadRegs a (regsFrom k n) = .ok t ∧ t = { s with v := t.v } ∧
      ∀ r : Nibble, t.reg r = if k ≤ r.toNat ∧ r.toNat < k + n then s.peek (a + (r.toNat - k)) else s.reg r := by
  induction n generalizing s a k with
  | zero => exact ⟨s, rfl, rfl, by intro r; simp⟩
  | succ n ih =>
    have hcons : regsFrom k (n + 1) = BitVec.ofNat 4 k :: regsFrom (k + 1) n := by
      simp [regsFrom, List.range'_succ]
    obtain ⟨t, ht, hfr, hreg⟩ :=
      ih (s.setReg (BitVec.ofNat 4 k) (s.peek a)) (a + 1) (k + 1) (by omega) (by omega)
    refine ⟨t, ?_, hfr.trans rfl, fun r => ?_⟩
    · rw [hcons, State.loadRegs, State.readByte_in s (by omega)]
      exact ht
    · rw [hreg, State.reg_setReg]
      have hkr : r = BitVec.ofNat 4 k ↔ r.toNat = k := by
        rw [← BitVec.toNat_inj, BitVec.toNat_ofNat, Nat.mod_eq_of_lt (by omega)]
      by_cases hr : r.toNat = k
      · rw [if_neg (by omega), if_pos (hkr.mpr hr), if_pos (by omega), hr, Nat.sub_self, Nat.add_zero]
      · rw [if_neg (mt hkr.mp hr)]
        by_cases hin : k + 1 ≤ r.toNat ∧ r.toNat < k + 1 + n
        · have : a + 1 + (r.toNat - (k + 1)) = a + (r.toNat - k) := by omega
          rw [if_pos hin, if_pos (by omega), this]
          rfl
        · rw [if_neg hin, if_neg (by omega)]

/-- Loading past the end of memory reports the first address out of range, and has changed registers only: those of the
block whose byte lies in memory are loaded. -/
theorem State.loadRegs_error (s : State) (a k n : Nat) (hk : k + n ≤ 16) (hn : n ≠ 0) (hout : memSize < a + n) :
    ∃ t, s.loadRegs a (regsFrom k n) = .error (.invalidMemoryAddress (max a memSize), t) ∧ t = { s with v := t.v } ∧
      ∀ r : Nibble, t.reg r =
        if k ≤ r.toNat ∧ r.toNat < k + n ∧ a + (r.toNat - k) < memSize then s.peek (a + (r.toNat - k)) else s.reg r := by
  induction n generalizing s a k with
  | zero => exact absurd rfl hn
  | succ n ih =>
    have hcons : regsFrom k (n + 1) = BitVec.ofNat 4 k :: regsFrom (k + 1) n := by
      simp [regsFrom, List.range'_succ]
    rw [hcons, State.loadRegs]
    by_cases ha : a < memSize
    · rw [State.readByte_in s ha]
      obtain ⟨t, ht, hfr, hreg⟩ :=
        ih (s.setReg (BitVec.ofNat 4 k) (s.peek a)) (a + 1) (k + 1) (by omega) (by omega) (by omega)
      refine ⟨t, ?_, hfr.trans rfl, fun r => ?_⟩
      · simp only [ht]
        rw [Nat.max_eq_right (by omega), Nat.max_eq_right (by omega)]
      · rw [hreg, State.reg_setReg]
        have hkr : r = BitVec.ofNat 4 k ↔ r.toNat = k := by
          rw [← BitVec.toNat_inj, BitVec.toNat_ofNat, Nat.mod_eq_of_lt (by omega)]
        by_cases hr : r.toNat = k
        · rw [if_neg (by omega), if_pos (hkr.mpr hr), if_pos (by omega), hr, Nat.sub_self, Nat.add_zero]
        · rw [if_neg (mt hkr.mp hr)]
          by_cases hin : k + 1 ≤ r.toNat ∧ r.toNat < k + 1 + n ∧ a + 1 + (r.toNat - (k + 1)) < memSize
          · have : a + 1 + (r.toNat - (k + 1)) = a + (r.toNat - k) := by omega
            rw [if_pos hin, if_pos (by omega), this]
            rfl
          · rw [if_neg hin, if_neg (by omega)]
    · rw [State.readByte_out s (Nat.not_lt.mp ha)]
      exact ⟨s, by simp [Nat.max_eq_left (Nat.not_lt.mp ha)], rfl, fun r => by rw [if_neg (by omega)]⟩

/-! ## Stack (10_state.md R27) -/

theorem State.push_room (s : State) (w : Word) (h : s.stack.length < stackCap) :
    s.push w = .ok { s with stack := w :: s.stack } := by
  simp [State.push, h]

theorem State.push_full (s : State) (w : Word) (h : stackCap ≤ s.stack.length) : s.push w = .error .stackOverflow := by
  simp [State.push, Nat.not_lt.mpr h]

theorem State.pop_cons (s : State) (w : Word) (ws : List Word) (h : s.stack = w :: ws) :
    s.pop = .ok (w, { s with stack := ws }) := by
  simp [State.pop, h]

theorem State.pop_nil (s : State) (h : s.stack = []) : s.pop = .error .stackUnderflow := by
  simp [State.pop, h]

/-! ## Keypad (45_timers_keys_random.md R163) -/

theorem mem_allNibbles (k : Nibble) : k ∈ allNibbles := by
  revert k
  decide

theorem State.mem_pressedKeys (s : State) (k : Nibble) : k ∈ s.pressedKeys ↔ s.key k = true := by
  simp [State.pressedKeys, mem_allNibbles]

theorem State.pressedKeys_nil (s : State) : s.pressedKeys = [] ↔ ∀ k, s.key k = false := by
  simp [List.eq_nil_iff_forall_not_mem, State.mem_pressedKeys]

/-- The key chosen is one of those offered, and one is chosen whenever any is. -/
theorem chooseKey_spec (d : Nat) (ks : List Nibble) :
    (ks = [] ∧ chooseKey d ks = none) ∨ ∃ k ∈ ks, chooseKey d ks = some k := by
  match ks with
  | [] => exact .inl ⟨rfl, rfl⟩
  | [k] => exact .inr ⟨k, by simp, rfl⟩
  | k :: l :: ks =>
    refine .inr ⟨(k :: l :: ks).getD (Config.keyChoice d % (k :: l :: ks).length) k, ?_, rfl⟩
    have hlt : Config.keyChoice d % (k :: l :: ks).length < (k :: l :: ks).length := Nat.mod_lt _ (by simp)
    rw [List.getD_eq_getElem _ _ hlt]
    exact List.getElem_mem hlt

theorem keyOf_some (b : Byte) (h : b.toNat ≤ 15) : keyOf b = some (BitVec.ofNat 4 b.toNat) := by
  simp [keyOf, h]

theorem keyOf_none (b : Byte) (h : 15 < b.toNat) : keyOf b = none := by
  simp [keyOf, Nat.not_le.mpr h]

end Sys2Proof.Machine
end

