-- ==== Sys2Proof/Laws/Step.lean ====
section
/-! SUPPORT. All that one step and one event can do, as case lemmas (30_encoding.md R70, 00_scope.md R13). -/

namespace Sys2Proof.Machine

/-- A step that answers a next state: the machine was faulted and stays, or its fetch faults, or it executes the word at
`pc` with `pc` advanced. -/
theorem step_cases {s t : State} (h : step s = .next t) :
    ((∃ f, s.faultStatus = some f) ∧ t = s) ∨
    (s.faultStatus = none ∧ memSize ≤ s.pc.toNat + 1 ∧
      t = { s with faultStatus := some (.invalidMemoryAddress (max s.pc.toNat memSize)) }) ∨
    (s.faultStatus = none ∧ s.pc.toNat + 1 < memSize ∧ execWord (s.wordAt s.pc.toNat) s.advance = .next t) := by
  unfold step at h
  split at h
  · next f hf => exact .inl ⟨⟨f, hf⟩, by simpa using h.symm⟩
  · next hf =>
    rw [State.fetch_eq] at h
    by_cases hpc : s.pc.toNat + 1 < memSize
    · rw [if_pos hpc] at h
      exact .inr (.inr ⟨hf, hpc, h⟩)
    · rw [if_neg hpc] at h
      exact .inr (.inl ⟨hf, Nat.not_lt.mp hpc, by simpa using h.symm⟩)

/-- A word executed to a next state: an instruction's meaning, or the fault of an unsupported word. -/
theorem execWord_cases {op : Word} {s t : State} (h : execWord op s = .next t) :
    (∃ i, decode op = .instr i ∧ exec i s = .next t) ∨
    (∃ w, t = { s with faultStatus := some (.unsupportedInstruction w) }) := by
  unfold execWord at h
  split at h
  · next i hi => exact .inl ⟨i, hi, h⟩
  · next w _ => exact .inr ⟨w, by simpa [State.takeUnsupported] using h.symm⟩
  · next x y w _ => exact .inr ⟨w, by simpa [State.takeUnsupported] using h.symm⟩

/-- The bytes a load places, and that it keeps the canonical form. -/
theorem loadBytes_spec (c : Config) (m : Memory) (a : Nat) (bs : List Byte) (h : a + bs.length ≤ memSize) :
    (Memory.wf c m → Memory.wf c (loadBytes c m a bs)) ∧
    ∀ b, Memory.read c (loadBytes c m a bs) b =
      if a ≤ b ∧ b < a + bs.length then bs.getD (b - a) 0 else Memory.read c m b := by
  induction bs generalizing m a with
  | nil => exact ⟨id, fun b => by simp [loadBytes]⟩
  | cons w bs ih =>
    rw [List.length_cons] at h
    obtain ⟨hwf, hrd⟩ := ih (Memory.write c m a w) (a + 1) (by omega)
    refine ⟨fun hm => hwf (Memory.write_wf c m a w (by omega) hm), fun b => ?_⟩
    rw [loadBytes, hrd, Memory.read_write, List.length_cons]
    by_cases hb : b = a
    · subst hb
      rw [if_neg (by omega), if_pos rfl, if_pos (by omega)]
      simp
    · by_cases hin : a + 1 ≤ b ∧ b < a + 1 + bs.length
      · have : b - a = (b - (a + 1)) + 1 := by omega
        rw [if_pos hin, if_pos (by omega), this, List.getD_cons_succ]
      · rw [if_neg hin, if_neg hb, if_neg (by omega)]

/-- A word placed for the fetch is the word the fetch reads (log 20). -/
theorem withFetchWord_fetch (s : State) (nbits w : Nat) (h : s.pc.toNat + 1 < memSize) :
    (s.withFetchWord nbits w).fetch = .ok (tableWord nbits w) := by
  unfold State.withFetchWord State.storeWordAtPc
  rw [if_pos h, State.fetch_eq]
  simp [State.wordAt, h]

end Sys2Proof.Machine
end

