-- ==== Sys2Proof/Laws/Exec.lean ====
section
/-! SUPPORT. What the meanings that branch or repeat can do, one lemma each, and what a frame says of an update. -/

namespace Sys2Proof.Machine

/-! ## Frames -/

theorem SameExcept.refl (ps : List Part) (s : State) : SameExcept ps s s := by
  intro p _
  cases p <;> simp [Part.Same]

/-- A frame may name more parts. -/
theorem SameExcept.mono {ps qs : List Part} {s t : State} (h : SameExcept ps s t) (hsub : ∀ p ∈ ps, p ∈ qs) :
    SameExcept qs s t := fun p hp => h p fun hm => hp (hsub p hm)

theorem SameExcept.trans {ps : List Part} {s t u : State} (h : SameExcept ps s t) (k : SameExcept ps t u) :
    SameExcept ps s u := by
  intro p hp
  have h1 := h p hp
  have h2 := k p hp
  cases p <;> simp_all [Part.Same]

theorem sameExcept_setReg (s : State) (r : Nibble) (b : Byte) : SameExcept [.regs] s (s.setReg r b) := by
  intro p hp
  cases p <;> simp_all [Part.Same]

theorem sameExcept_setPc (s : State) (w : Word) : SameExcept [.pc] s (s.setPc w) := by
  intro p hp
  cases p <;> simp_all [Part.Same]

theorem sameExcept_setIndex (s : State) (w : Word) : SameExcept [.index] s (s.setIndex w) := by
  intro p hp
  cases p <;> simp_all [Part.Same]

theorem sameExcept_fault (s : State) (f : Option Fault) : SameExcept [.fault] s { s with faultStatus := f } := by
  intro p hp
  cases p <;> first | (simp at hp; done) | rfl | (intro a; rfl) | (intro a b; rfl)

theorem sameExcept_mem (s : State) (m : Memory) : SameExcept [.memory] s { s with mem := m } := by
  intro p hp
  cases p <;> first | (simp at hp; done) | rfl | (intro a; rfl) | (intro a b; rfl)

theorem sameExcept_regs (s : State) (v : Vector Byte 16) : SameExcept [.regs] s { s with v := v } := by
  intro p hp
  cases p <;> first | (simp at hp; done) | rfl | (intro a; rfl) | (intro a b; rfl)

theorem sameExcept_screen (s : State) (l : Screen) : SameExcept [.screen] s { s with screen := l } := by
  intro p hp
  cases p <;> first | (simp at hp; done) | rfl | (intro a; rfl)

theorem sameExcept_stack (s : State) (l : List Word) : SameExcept [.stack] s { s with stack := l } := by
  intro p hp
  cases p <;> first | (simp at hp; done) | rfl | (intro a; rfl) | (intro a b; rfl)

/-! ## Flow (40_flow.md R101, R103) -/

/-- A return takes the most recent entry, or underflows. -/
theorem execSubroutineReturn_cases (s : State) :
    (s.stack = [] ∧ execSubroutineReturn s = .next { s with faultStatus := some .stackUnderflow }) ∨
    (∃ w ws, s.stack = w :: ws ∧ execSubroutineReturn s = .next (({ s with stack := ws } : State).setPc w)) := by
  have hst : s.stack = [] ∨ ∃ w ws, s.stack = w :: ws := by cases s.stack <;> simp
  rcases hst with h | ⟨w, ws, h⟩
  · exact .inl ⟨h, by simp only [execSubroutineReturn, State.pop_nil s h, State.raise_eq]⟩
  · exact .inr ⟨w, ws, h, by simp only [execSubroutineReturn, State.pop_cons s w ws h]⟩

/-- A call pushes and jumps, or overflows and does neither. -/
theorem execSubroutineCall_cases (nnn : Addr12) (s : State) :
    (s.stack.length < stackCap ∧ execSubroutineCall nnn s =
      .next (({ s with stack := s.pc :: s.stack } : State).setPc (immediateWord nnn))) ∨
    (stackCap ≤ s.stack.length ∧ execSubroutineCall nnn s = .next { s with faultStatus := some .stackOverflow }) := by
  by_cases h : s.stack.length < stackCap
  · exact .inl ⟨h, by simp only [execSubroutineCall, State.push_room s s.pc h]⟩
  · exact .inr ⟨Nat.not_lt.mp h, by
      simp only [execSubroutineCall, State.push_full s s.pc (Nat.not_lt.mp h), State.raise_eq]⟩

/-! ## Skips on a key (41_skips.md R114) -/

theorem State.skipIfKey_cases (s : State) (x : Nibble) (pressed : Bool) :
    (∃ k : Nibble, (s.reg x).toNat = k.toNat ∧
      s.skipIfKey x pressed = .next (s.setPc (if s.key k == pressed then s.pc + 2 else s.pc))) ∨
    (15 < (s.reg x).toNat ∧ s.skipIfKey x pressed = .next { s with faultStatus := some (.invalidKey (s.reg x)) }) := by
  by_cases h : (s.reg x).toNat ≤ 15
  · refine .inl ⟨BitVec.ofNat 4 (s.reg x).toNat, ?_, ?_⟩
    · rw [BitVec.toNat_ofNat, Nat.mod_eq_of_lt (by omega)]
    · simp only [State.skipIfKey, keyOf_some _ h, State.skipIf_eq]
  · refine .inr ⟨by omega, ?_⟩
    simp only [State.skipIfKey, keyOf_none _ (Nat.not_le.mp h), State.raise_eq]

/-! ## Block writes and reads (43_index_memory.md R143 to R145) -/

/-- Writing bytes answers a state or a fault at the first address out of range, and has changed memory only; at a fault the
bytes that lie in memory are written. -/
theorem State.writeBytes_cases (s : State) (a : Nat) (bs : List Byte) :
    (∃ m, s.writeBytes a bs = .ok { s with mem := m } ∧ (Memory.wf s.cfg s.mem → Memory.wf s.cfg m)) ∨
    (∃ m, memSize < a + bs.length ∧
      s.writeBytes a bs = .error (.invalidMemoryAddress (max a memSize), { s with mem := m }) ∧
      (Memory.wf s.cfg s.mem → Memory.wf s.cfg m) ∧
      ∀ b, ({ s with mem := m } : State).peek b = if a ≤ b ∧ b < memSize then bs.getD (b - a) 0 else s.peek b) := by
  by_cases h : bs = [] ∨ a + bs.length ≤ memSize
  · obtain ⟨t, ht, hfr, hwf, -⟩ := State.writeBytes_ok s a bs h
    exact .inl ⟨t.mem, by rw [← hfr]; exact ht, hwf⟩
  · obtain ⟨h1, h2⟩ := not_or.mp h
    obtain ⟨t, ht, hfr, hwf, hpk⟩ := State.writeBytes_error s a bs h1 (Nat.not_le.mp h2)
    exact .inr ⟨t.mem, Nat.not_le.mp h2, by rw [← hfr]; exact ht, hwf, by rw [← hfr]; exact hpk⟩

/-- Loading V0 to Vx answers a state or a fault at the first address out of range, and has changed those registers only; at
a fault those whose byte lies in memory are loaded. -/
theorem State.loadRegs_cases (s : State) (a : Nat) (x : Nibble) :
    (∃ v, s.loadRegs a (registersUpTo x) = .ok { s with v := v } ∧
      ∀ r : Nibble, x.toNat < r.toNat → ({ s with v := v } : State).reg r = s.reg r) ∨
    (∃ v, memSize < a + (x.toNat + 1) ∧
      s.loadRegs a (registersUpTo x) = .error (.invalidMemoryAddress (max a memSize), { s with v := v }) ∧
      ∀ r : Nibble, ({ s with v := v } : State).reg r =
        if r.toNat ≤ x.toNat ∧ a + r.toNat < memSize then s.peek (a + r.toNat) else s.reg r) := by
  have hx := x.isLt
  rw [registersUpTo_eq]
  by_cases h : a + (x.toNat + 1) ≤ memSize
  · obtain ⟨t, ht, hfr, hreg⟩ := State.loadRegs_ok s a 0 (x.toNat + 1) (by omega) (.inr h)
    refine .inl ⟨t.v, by rw [← hfr]; exact ht, fun r hr => ?_⟩
    rw [← hfr, hreg, if_neg (by omega)]
  · obtain ⟨t, ht, hfr, hreg⟩ := State.loadRegs_error s a 0 (x.toNat + 1) (by omega) (by omega) (Nat.not_le.mp h)
    refine .inr ⟨t.v, Nat.not_le.mp h, by rw [← hfr]; exact ht, fun r => ?_⟩
    rw [← hfr, hreg, Nat.sub_zero]
    exact if_congr (by omega) rfl rfl

/-- The conversion writes its digits, or faults with those that lie in memory written. -/
theorem execDecimalConversion_cases (x : Nibble) (s : State) :
    (∃ m, execDecimalConversion x s = .next { s with mem := m } ∧ (Memory.wf s.cfg s.mem → Memory.wf s.cfg m)) ∨
    (∃ m, memSize < s.i.toNat + 3 ∧
      execDecimalConversion x s =
        .next { s with mem := m, faultStatus := some (.invalidMemoryAddress (max s.i.toNat memSize)) } ∧
      (Memory.wf s.cfg s.mem → Memory.wf s.cfg m) ∧
      ∀ b, ({ s with mem := m } : State).peek b =
        if s.i.toNat ≤ b ∧ b < memSize then (decimalDigits (s.reg x)).getD (b - s.i.toNat) 0 else s.peek b) := by
  rcases State.writeBytes_cases s s.i.toNat (decimalDigits (s.reg x)) with ⟨m, h, hwf⟩ | ⟨m, hlt, h, hrest⟩
  · exact .inl ⟨m, by rw [execDecimalConversion, h, settle_ok], hwf⟩
  · exact .inr ⟨m, hlt, by rw [execDecimalConversion, h, settle_error, State.raise_eq], hrest⟩

/-- A store writes its block and moves the index, or faults with the registers whose byte lies in memory stored. -/
theorem execStoreRegisters_cases (x : Nibble) (s : State) :
    (∃ m, execStoreRegisters x s = .next (({ s with mem := m } : State).advanceIndex x) ∧
      (Memory.wf s.cfg s.mem → Memory.wf s.cfg m)) ∨
    (∃ m, memSize < s.i.toNat + (x.toNat + 1) ∧
      execStoreRegisters x s =
        .next { s with mem := m, faultStatus := some (.invalidMemoryAddress (max s.i.toNat memSize)) } ∧
      (Memory.wf s.cfg s.mem → Memory.wf s.cfg m) ∧
      ∀ b, ({ s with mem := m } : State).peek b =
        if s.i.toNat ≤ b ∧ b < memSize then ((registersUpTo x).map s.reg).getD (b - s.i.toNat) 0 else s.peek b) := by
  rcases State.writeBytes_cases s s.i.toNat ((registersUpTo x).map s.reg) with ⟨m, h, hwf⟩ | ⟨m, hlt, h, hrest⟩
  · exact .inl ⟨m, by rw [execStoreRegisters, h, Except.map, settle_ok], hwf⟩
  · exact .inr ⟨m, by simpa [registersUpTo] using hlt, by
      rw [execStoreRegisters, h, Except.map, settle_error, State.raise_eq], hrest⟩

/-- Element `r` of the block a store writes is `V[r]`. -/
theorem State.blockByte (s : State) (x r : Nibble) (h : r.toNat ≤ x.toNat) :
    ((registersUpTo x).map s.reg).getD r.toNat 0 = s.reg r := by
  rw [List.getD_eq_getElem _ _ (by simp [registersUpTo]; omega)]
  simp [registersUpTo]

/-- A load fills its block and moves the index, or faults with the registers whose byte lies in memory loaded. -/
theorem execLoadRegisters_cases (x : Nibble) (s : State) :
    (∃ v, execLoadRegisters x s = .next (({ s with v := v } : State).advanceIndex x) ∧
      ∀ r : Nibble, x.toNat < r.toNat → ({ s with v := v } : State).reg r = s.reg r) ∨
    (∃ v, memSize < s.i.toNat + (x.toNat + 1) ∧
      execLoadRegisters x s =
        .next { s with v := v, faultStatus := some (.invalidMemoryAddress (max s.i.toNat memSize)) } ∧
      ∀ r : Nibble, ({ s with v := v } : State).reg r =
        if r.toNat ≤ x.toNat ∧ s.i.toNat + r.toNat < memSize then s.peek (s.i.toNat + r.toNat) else s.reg r) := by
  rcases State.loadRegs_cases s s.i.toNat x with ⟨v, h, hreg⟩ | ⟨v, hlt, h, hreg⟩
  · exact .inl ⟨v, by rw [execLoadRegisters, h, Except.map, settle_ok], hreg⟩
  · exact .inr ⟨v, hlt, by rw [execLoadRegisters, h, Except.map, settle_error, State.raise_eq], hreg⟩

/-! ## Draw (44_display.md R151) -/

/-- A draw reads all its bytes and draws them, or faults at the first address out of range. -/
theorem execDraw_cases (x y n : Nibble) (s : State) :
    ((n.toNat = 0 ∨ s.i.toNat + n.toNat ≤ memSize) ∧
      execDraw x y n s = .next (s.drawAt (s.reg x) (s.reg y) (s.bytesAt s.i.toNat n.toNat))) ∨
    (¬(n.toNat = 0 ∨ s.i.toNat + n.toNat ≤ memSize) ∧
      execDraw x y n s = .next { s with faultStatus := some (.invalidMemoryAddress (max s.i.toNat memSize)) }) := by
  by_cases h : n.toNat = 0 ∨ s.i.toNat + n.toNat ≤ memSize
  · exact .inl ⟨h, by simp only [execDraw, State.readBytes_eq, if_pos h]⟩
  · exact .inr ⟨h, by simp only [execDraw, State.readBytes_eq, if_neg h, State.raise_eq]⟩

/-- What a draw can change: the screen, which stays canonical, and VF. -/
theorem State.drawAt_eq (s : State) (vx vy : Byte) (bytes : List Byte) :
    ∃ l b, s.drawAt vx vy bytes = ({ s with screen := l } : State).setReg vf (flagByte b) ∧
      (Screen.wf s.cfg s.screen → Screen.wf s.cfg l) :=
  ⟨_, _, rfl, fun h => drawSprite_wf s.cfg _ _ bytes (s.screen, false) h⟩

/-! ## The key wait (45_timers_keys_random.md R163) -/

theorem execGetKey_cases (x : Nibble) (s : State) :
    ((∀ k, s.key k = false) ∧ execGetKey x s = .next (s.setPc (s.pc - 2))) ∨
    (∃ k, s.key k = true ∧ execGetKey x s = .next (s.setReg x (keyByte k)).countDraw) := by
  rcases chooseKey_spec s.draws s.pressedKeys with ⟨hnil, h⟩ | ⟨k, hk, h⟩
  · exact .inl ⟨(State.pressedKeys_nil s).mp hnil, by simp only [execGetKey, h]⟩
  · exact .inr ⟨k, (State.mem_pressedKeys s k).mp hk, by simp only [execGetKey, h]⟩

end Sys2Proof.Machine
end

