-- ==== Sys2Proof/Laws/PerInstr.lean ====
section
/-! SUPPORT. Per-instruction laws about the instruction as syntax. TableMask: the encoder's word, masked by its opcode
table row's mask, is the row's match, whatever the operands (30_encoding.md R76). -/

namespace Sys2Proof

/-- The word of `i` belongs to `i`'s row of the opcode table. -/
def Laws.TableMask.Statement (i : Instr) : Prop := encode i &&& (tableRow i).1 = (tableRow i).2

theorem append_and_append {m n : Nat} (a c : BitVec m) (b d : BitVec n) :
    (a ++ b) &&& (c ++ d) = (a &&& c) ++ (b &&& d) := by
  apply BitVec.eq_of_getLsbD_eq
  intro i hi
  rw [BitVec.getLsbD_and, BitVec.getLsbD_append, BitVec.getLsbD_append, BitVec.getLsbD_append]
  split <;> simp

theorem and_ones (f : Nibble) : f &&& 0xF = f := BitVec.and_allOnes

/-- Format NNN under a mask of the family nibble. -/
theorem mask_wordNNN (f : Nibble) (nnn : Addr12) : wordNNN f nnn &&& 0xF000 = wordNNN f 0 := by
  have h : (0xF000 : BitVec (4 + 12)) = (0xF : Nibble) ++ (0 : BitVec 12) := by decide
  show (f ++ nnn) &&& (0xF000 : BitVec (4 + 12)) = f ++ (0 : BitVec 12)
  rw [h, append_and_append, and_ones]
  simp

/-- Formats XNN and XKK under a mask of the family nibble and of some bits `k` of the low byte. -/
theorem mask_wordXNN (f x : Nibble) (nn k : Byte) :
    wordXNN f x nn &&& wordXNN 0xF 0 k = wordXNN f 0 (nn &&& k) := by
  show (f ++ x ++ nn) &&& ((0xF : Nibble) ++ (0 : Nibble) ++ k) = f ++ (0 : Nibble) ++ (nn &&& k)
  rw [append_and_append, append_and_append, and_ones]
  simp

/-- Formats XYK and XYN under a mask of the family nibble and of some bits `k` of the low nibble. -/
theorem mask_wordXYN (f x y n k : Nibble) :
    wordXYN f x y n &&& wordXYN 0xF 0 0 k = wordXYN f 0 0 (n &&& k) := by
  show (f ++ x ++ y ++ n) &&& ((0xF : Nibble) ++ (0 : Nibble) ++ (0 : Nibble) ++ k) =
    f ++ (0 : Nibble) ++ (0 : Nibble) ++ (n &&& k)
  rw [append_and_append, append_and_append, append_and_append, and_ones]
  simp

namespace Laws.TableMask

theorem system (nnn : Addr12) : Statement (.system nnn) :=
  mask_wordNNN _ nnn

theorem clearScreen : Statement (.clearScreen) :=
  rfl

theorem subroutineReturn : Statement (.subroutineReturn) :=
  rfl

theorem jump (nnn : Addr12) : Statement (.jump nnn) :=
  mask_wordNNN _ nnn

theorem subroutineCall (nnn : Addr12) : Statement (.subroutineCall nnn) :=
  mask_wordNNN _ nnn

theorem skipEqualValue (x : Nibble) (nn : Byte) : Statement (.skipEqualValue x nn) :=
  (mask_wordXNN _ x nn 0).trans (by simp [tableRow]; decide)

theorem skipNotEqualValue (x : Nibble) (nn : Byte) : Statement (.skipNotEqualValue x nn) :=
  (mask_wordXNN _ x nn 0).trans (by simp [tableRow]; decide)

theorem skipEqualRegister (x y : Nibble) : Statement (.skipEqualRegister x y) :=
  mask_wordXYN _ x y _ 0xF

theorem setRegister (x : Nibble) (nn : Byte) : Statement (.setRegister x nn) :=
  (mask_wordXNN _ x nn 0).trans (by simp [tableRow]; decide)

theorem addValueRegister (x : Nibble) (nn : Byte) : Statement (.addValueRegister x nn) :=
  (mask_wordXNN _ x nn 0).trans (by simp [tableRow]; decide)

theorem aluSet (x y : Nibble) : Statement (.aluSet x y) :=
  mask_wordXYN _ x y _ 0xF

theorem aluOr (x y : Nibble) : Statement (.aluOr x y) :=
  mask_wordXYN _ x y _ 0xF

theorem aluAnd (x y : Nibble) : Statement (.aluAnd x y) :=
  mask_wordXYN _ x y _ 0xF

theorem aluXor (x y : Nibble) : Statement (.aluXor x y) :=
  mask_wordXYN _ x y _ 0xF

theorem aluAdd (x y : Nibble) : Statement (.aluAdd x y) :=
  mask_wordXYN _ x y _ 0xF

theorem aluSubtract (x y : Nibble) : Statement (.aluSubtract x y) :=
  mask_wordXYN _ x y _ 0xF

theorem aluShiftRight (x y : Nibble) : Statement (.aluShiftRight x y) :=
  mask_wordXYN _ x y _ 0xF

theorem aluSubtractInverse (x y : Nibble) : Statement (.aluSubtractInverse x y) :=
  mask_wordXYN _ x y _ 0xF

theorem aluShiftLeft (x y : Nibble) : Statement (.aluShiftLeft x y) :=
  mask_wordXYN _ x y _ 0xF

theorem skipNotEqualRegister (x y : Nibble) : Statement (.skipNotEqualRegister x y) :=
  mask_wordXYN _ x y _ 0xF

theorem setIndex (nnn : Addr12) : Statement (.setIndex nnn) :=
  mask_wordNNN _ nnn

theorem jumpOffset (x : Nibble) (nnn : Addr12) : Statement (.jumpOffset x nnn) :=
  mask_wordNNN _ nnn

theorem random (x : Nibble) (nn : Byte) : Statement (.random x nn) :=
  (mask_wordXNN _ x nn 0).trans (by simp [tableRow]; decide)

theorem draw (x y n : Nibble) : Statement (.draw x y n) :=
  (mask_wordXYN _ x y n 0).trans (by simp [tableRow]; decide)

theorem skipIfKeyPressed (x : Nibble) : Statement (.skipIfKeyPressed x) :=
  mask_wordXNN _ x _ 0xFF

theorem skipIfKeyReleased (x : Nibble) : Statement (.skipIfKeyReleased x) :=
  mask_wordXNN _ x _ 0xFF

theorem getDelayTimer (x : Nibble) : Statement (.getDelayTimer x) :=
  mask_wordXNN _ x _ 0xFF

theorem getKey (x : Nibble) : Statement (.getKey x) :=
  mask_wordXNN _ x _ 0xFF

theorem setDelayTimer (x : Nibble) : Statement (.setDelayTimer x) :=
  mask_wordXNN _ x _ 0xFF

theorem setSoundTimer (x : Nibble) : Statement (.setSoundTimer x) :=
  mask_wordXNN _ x _ 0xFF

theorem addToIndex (x : Nibble) : Statement (.addToIndex x) :=
  mask_wordXNN _ x _ 0xFF

theorem fontCharacter (x : Nibble) : Statement (.fontCharacter x) :=
  mask_wordXNN _ x _ 0xFF

theorem decimalConversion (x : Nibble) : Statement (.decimalConversion x) :=
  mask_wordXNN _ x _ 0xFF

theorem storeRegisters (x : Nibble) : Statement (.storeRegisters x) :=
  mask_wordXNN _ x _ 0xFF

theorem loadRegisters (x : Nibble) : Statement (.loadRegisters x) :=
  mask_wordXNN _ x _ 0xFF

end Laws.TableMask

end Sys2Proof
end

