-- ==== Sys2Proof/Tests/Slice0.lean ====
section
/-! SUPPORT. The model's own tests. Expected results are the vectors of 95_test_vectors.md (their ids stand beside each test)
and the encodings of 30_encoding.md R76; none is the model's own answer. After them one witness for each statement of the
certificates that has hypotheses. -/

namespace Sys2Proof.Tests

open Sys2Proof Sys2Proof.Machine

/-! ## Well-formedness: an ill-formed term for each check, refused -/

theorem test_wf_system_not_cls : (Instr.system 0x0E0).wf = false := by decide
theorem test_wf_system_not_ret : (Instr.system 0x0EE).wf = false := by decide
theorem test_wf_jumpOffset_x : (Instr.jumpOffset 1 0x210).wf = false := by decide
theorem test_wf_accepts : (Instr.system 0x0E1).wf = true ∧ (Instr.jumpOffset 2 0x210).wf = true := by decide

/-! ## Decoding: one word per row of the table, written bit by bit from 30_encoding.md R76 -/

theorem test_decode_SYS : decodeTableWord 16 0b0000_000100100011 = some (.system 0x123) := by decide
theorem test_decode_CLS : decodeTableWord 16 0b0000_0000_1110_0000 = some .clearScreen := by decide
theorem test_decode_RET : decodeTableWord 16 0b0000_0000_1110_1110 = some .subroutineReturn := by decide
theorem test_decode_JP : decodeTableWord 16 0b0001_101010111100 = some (.jump 0xABC) := by decide
theorem test_decode_CALL : decodeTableWord 16 0b0010_001000010000 = some (.subroutineCall 0x210) := by decide
theorem test_decode_SE_value : decodeTableWord 16 0b0011_0111_10000001 = some (.skipEqualValue 7 0x81) := by decide
theorem test_decode_SNE_value : decodeTableWord 16 0b0100_0111_10000001 = some (.skipNotEqualValue 7 0x81) := by decide
theorem test_decode_SE : decodeTableWord 16 0b0101_0001_0010_0000 = some (.skipEqualRegister 1 2) := by decide
theorem test_decode_LD_value : decodeTableWord 16 0b0110_1111_10101011 = some (.setRegister 15 0xAB) := by decide
theorem test_decode_ADD_value : decodeTableWord 16 0b0111_0001_00000011 = some (.addValueRegister 1 3) := by decide
theorem test_decode_LD : decodeTableWord 16 0b1000_0001_0010_0000 = some (.aluSet 1 2) := by decide
theorem test_decode_OR : decodeTableWord 16 0b1000_0001_0010_0001 = some (.aluOr 1 2) := by decide
theorem test_decode_AND : decodeTableWord 16 0b1000_0001_0010_0010 = some (.aluAnd 1 2) := by decide
theorem test_decode_XOR : decodeTableWord 16 0b1000_0001_0010_0011 = some (.aluXor 1 2) := by decide
theorem test_decode_ADD : decodeTableWord 16 0b1000_0001_0010_0100 = some (.aluAdd 1 2) := by decide
theorem test_decode_SUB : decodeTableWord 16 0b1000_0001_0010_0101 = some (.aluSubtract 1 2) := by decide
theorem test_decode_SHR : decodeTableWord 16 0b1000_0001_0010_0110 = some (.aluShiftRight 1 2) := by decide
theorem test_decode_SUBN : decodeTableWord 16 0b1000_0001_0010_0111 = some (.aluSubtractInverse 1 2) := by decide
theorem test_decode_SHL : decodeTableWord 16 0b1000_0001_0010_1110 = some (.aluShiftLeft 1 2) := by decide
theorem test_decode_SNE : decodeTableWord 16 0b1001_0001_0010_0000 = some (.skipNotEqualRegister 1 2) := by decide
theorem test_decode_LD_I : decodeTableWord 16 0b1010_001011110000 = some (.setIndex 0x2F0) := by decide
theorem test_decode_JP_V0 : decodeTableWord 16 0b1011_001000010000 = some (.jumpOffset 2 0x210) := by decide
theorem test_decode_RND : decodeTableWord 16 0b1100_0011_00001111 = some (.random 3 0x0F) := by decide
theorem test_decode_DRW : decodeTableWord 16 0b1101_0000_0001_0101 = some (.draw 0 1 5) := by decide
theorem test_decode_SKP : decodeTableWord 16 0b1110_0011_1001_1110 = some (.skipIfKeyPressed 3) := by decide
theorem test_decode_SKNP : decodeTableWord 16 0b1110_0011_1010_0001 = some (.skipIfKeyReleased 3) := by decide
theorem test_decode_LD_DT : decodeTableWord 16 0b1111_0011_0000_0111 = some (.getDelayTimer 3) := by decide
theorem test_decode_LD_K : decodeTableWord 16 0b1111_0101_0000_1010 = some (.getKey 5) := by decide
theorem test_decode_DT_LD : decodeTableWord 16 0b1111_0011_0001_0101 = some (.setDelayTimer 3) := by decide
theorem test_decode_ST_LD : decodeTableWord 16 0b1111_0011_0001_1000 = some (.setSoundTimer 3) := by decide
theorem test_decode_ADD_I : decodeTableWord 16 0b1111_0010_0001_1110 = some (.addToIndex 2) := by decide
theorem test_decode_LD_F : decodeTableWord 16 0b1111_0100_0010_1001 = some (.fontCharacter 4) := by decide
theorem test_decode_LD_B : decodeTableWord 16 0b1111_0000_0011_0011 = some (.decimalConversion 0) := by decide
theorem test_decode_store : decodeTableWord 16 0b1111_0010_0101_0101 = some (.storeRegisters 2) := by decide
theorem test_decode_load : decodeTableWord 16 0b1111_0010_0110_0101 = some (.loadRegisters 2) := by decide

/-- 95_test_vectors.md 2.9: neighbours of accepted words, none of them an instruction. -/
theorem test_decode_neighbours :
    [0x5121, 0x512F, 0x9121, 0x8128, 0x812D, 0x812F, 0xE000, 0xE09D, 0xE0A2, 0xF000, 0xF01F, 0xF066, 0xF085,
      0xF0FF].all (fun w => decodeTableWord 16 w == none) = true := by decide

/-! ## One step -/

/-- The reset state under the other variant. -/
def chip48 : State := { State.reset with cfg := { Config.default with variant := .chip48 } }

/-- The reset state with some registers set. -/
def withRegs (s : State) (l : List (Nibble × Byte)) : State := l.foldl (fun t e => t.setReg e.1 e.2) s

/-- The state with some bytes of memory set. -/
def withBytes (s : State) (a : Nat) (l : List Byte) : State := (l.zipIdx a).foldl (fun t e => t.poke e.2 e.1) s

/-- The word placed at `pc` and one step: what `f` sees of the next state. -/
def see {α : Type} (s : State) (op : Nat) (f : State → α) : Option α :=
  match step (s.withFetchWord 16 op) with
  | .next t => some (f t)
  | .fault _ => none
  | .refused _ => none

/-! ### Flow -/

/-- F1 -/
theorem test_system : see State.reset 0x0123 (fun t => (t.pc, t.v, t.stack, t.faultStatus)) =
    some (0x202, State.reset.v, [], none) := by decide
/-- F6 -/
theorem test_return : see { State.reset with stack := [0x400, 0x300] } 0x00EE (fun t => (t.pc, t.stack)) =
    some (0x400, [0x300]) := by decide
/-- F5 -/
theorem test_return_underflow : see State.reset 0x00EE (fun t => (t.pc, t.faultStatus)) =
    some (0x202, some .stackUnderflow) := by decide
/-- F12 -/
theorem test_jump : see State.reset 0x1FFF (fun t => t.pc) = some 0xFFF := by decide
/-- F7 -/
theorem test_call : see { State.reset with pc := 0x204 } 0x2210 (fun t => (t.pc, t.stack)) =
    some (0x210, [0x206]) := by decide
/-- F8 -/
theorem test_call_overflow : see { State.reset with stack := List.replicate 16 0x202 } 0x2300
    (fun t => (t.pc, t.stack, t.faultStatus)) = some (0x202, List.replicate 16 0x202, some .stackOverflow) := by decide
/-- F13, F14 -/
theorem test_jumpOffset_variants :
    see (withRegs State.reset [(0, 0x10), (2, 0x20)]) 0xB210 (fun t => t.pc) = some 0x220 ∧
    see (withRegs chip48 [(0, 0x10), (2, 0x20)]) 0xB210 (fun t => t.pc) = some 0x230 := by decide
/-- F15: the target is not masked to 12 bits. -/
theorem test_jumpOffset_not_masked :
    see (withRegs State.reset [(0, 0xFF), (15, 0xFF)]) 0xBFFF (fun t => t.pc) = some 0x10FE := by decide

/-! ### Skips -/

/-- K1, K2 -/
theorem test_skipEqualValue : see (withRegs State.reset [(7, 7)]) 0x3707 (fun t => t.pc) = some 0x204 ∧
    see (withRegs State.reset [(7, 8)]) 0x3707 (fun t => t.pc) = some 0x202 := by decide
/-- K3, K4 -/
theorem test_skipNotEqualValue : see (withRegs State.reset [(7, 7)]) 0x4707 (fun t => t.pc) = some 0x202 ∧
    see (withRegs State.reset [(7, 8)]) 0x4707 (fun t => t.pc) = some 0x204 := by decide
/-- K5, K6 -/
theorem test_skipEqualRegister :
    see (withRegs { State.reset with pc := 0x300 } [(1, 0x33), (2, 0x33)]) 0x5120 (fun t => t.pc) = some 0x304 ∧
    see (withRegs { State.reset with pc := 0x300 } [(1, 0x33), (2, 0x34)]) 0x5120 (fun t => t.pc) = some 0x302 := by
  decide
/-- K8, K9 -/
theorem test_skipNotEqualRegister :
    see (withRegs { State.reset with pc := 0x300 } [(1, 0x33), (2, 0x34)]) 0x9120 (fun t => t.pc) = some 0x304 ∧
    see (withRegs { State.reset with pc := 0x300 } [(1, 0x33), (2, 0x33)]) 0x9120 (fun t => t.pc) = some 0x302 := by
  decide
/-- K15, K12 -/
theorem test_skipIfKeyPressed :
    see ((withRegs State.reset [(3, 0x0F)]).setKey 15 true) 0xE39E (fun t => t.pc) = some 0x204 ∧
    see (withRegs State.reset [(3, 0x0A)]) 0xE39E (fun t => t.pc) = some 0x202 := by decide
/-- K16 -/
theorem test_skipIfKeyPressed_invalid : see (withRegs State.reset [(3, 0x10)]) 0xE39E (fun t => (t.pc, t.faultStatus)) =
    some (0x202, some (.invalidKey 16)) := by decide
/-- K13, K14 -/
theorem test_skipIfKeyReleased :
    see (withRegs State.reset [(3, 0x0A)]) 0xE3A1 (fun t => t.pc) = some 0x204 ∧
    see ((withRegs State.reset [(3, 0x0A)]).setKey 10 true) 0xE3A1 (fun t => t.pc) = some 0x202 := by decide
/-- K17 -/
theorem test_skipIfKeyReleased_invalid :
    see (withRegs State.reset [(3, 0xFF)]) 0xE3A1 (fun t => (t.pc, t.faultStatus)) =
    some (0x202, some (.invalidKey 255)) := by decide
/-- K18: a skip to the end of memory does not fault. -/
theorem test_skip_at_end : see { State.reset with pc := 0xFFC } 0x3000 (fun t => (t.pc, t.faultStatus)) =
    some (0x1000, none) := by decide

/-! ### Registers and the ALU -/

/-- A1 -/
theorem test_setRegister : see State.reset 0x6FAB (fun t => t.reg 15) = some 0xAB := by decide
/-- A2, A4: no flag, VF a plain destination. -/
theorem test_addValueRegister :
    see (withRegs State.reset [(1, 0xFE)]) 0x7103 (fun t => (t.reg 1, t.reg 15)) = some (0x01, 0) ∧
    see (withRegs State.reset [(15, 0xFF)]) 0x7F01 (fun t => t.reg 15) = some 0 := by decide
/-- A5 -/
theorem test_aluSet : see (withRegs State.reset [(2, 0x37)]) 0x8120 (fun t => (t.reg 1, t.reg 2)) =
    some (0x37, 0x37) := by decide
/-- A6: VF is kept. -/
theorem test_aluOr : see (withRegs State.reset [(1, 0xF0), (2, 0x0F), (15, 1)]) 0x8121 (fun t => (t.reg 1, t.reg 15)) =
    some (0xFF, 1) := by decide
/-- A7 -/
theorem test_aluAnd : see (withRegs State.reset [(1, 0xF0), (2, 0x3C)]) 0x8122 (fun t => t.reg 1) = some 0x30 := by
  decide
/-- A8 -/
theorem test_aluXor : see (withRegs State.reset [(1, 0xF0), (2, 0x3C)]) 0x8123 (fun t => t.reg 1) = some 0xCC := by
  decide
/-- A10, A14 -/
theorem test_aluAdd :
    see (withRegs State.reset [(1, 0xFA), (2, 0x0A)]) 0x8124 (fun t => (t.reg 1, t.reg 15)) = some (0x04, 1) ∧
    see (withRegs State.reset [(1, 0x80)]) 0x8114 (fun t => (t.reg 1, t.reg 15)) = some (0, 1) := by decide
/-- A15, A16: VF as destination and as source. -/
theorem test_aluAdd_vf :
    see (withRegs State.reset [(15, 0xC8), (1, 0x64)]) 0x8F14 (fun t => t.reg 15) = some 1 ∧
    see (withRegs State.reset [(1, 5), (15, 1)]) 0x81F4 (fun t => (t.reg 1, t.reg 15)) = some (6, 0) := by decide
/-- A17, A20: the absolute difference. -/
theorem test_aluSubtract :
    see (withRegs State.reset [(1, 5), (2, 0x0A)]) 0x8125 (fun t => (t.reg 1, t.reg 15)) = some (5, 0) ∧
    see (withRegs State.reset [(2, 1)]) 0x8125 (fun t => (t.reg 1, t.reg 15)) = some (1, 0) := by decide
/-- A19, A22 -/
theorem test_aluSubtract_flag :
    see (withRegs State.reset [(1, 7), (2, 7)]) 0x8125 (fun t => (t.reg 1, t.reg 15)) = some (0, 1) ∧
    see (withRegs State.reset [(15, 3), (1, 9)]) 0x8F15 (fun t => t.reg 15) = some 0 := by decide
/-- A24, A25 -/
theorem test_aluSubtractInverse :
    see (withRegs State.reset [(1, 5), (2, 0x0A)]) 0x8127 (fun t => (t.reg 1, t.reg 15)) = some (5, 1) ∧
    see (withRegs State.reset [(1, 0x0A), (2, 5)]) 0x8127 (fun t => (t.reg 1, t.reg 15)) = some (5, 0) := by decide
/-- A28, A29 -/
theorem test_aluShiftRight :
    see (withRegs State.reset [(1, 3), (2, 6)]) 0x8126 (fun t => (t.reg 1, t.reg 15, t.reg 2)) = some (3, 0, 6) ∧
    see (withRegs chip48 [(1, 3), (2, 6)]) 0x8126 (fun t => (t.reg 1, t.reg 15, t.reg 2)) = some (1, 1, 6) := by decide
/-- A33, A36: VF as destination and as the unused source. -/
theorem test_aluShiftRight_vf :
    see (withRegs State.reset [(1, 5)]) 0x8F16 (fun t => t.reg 15) = some 1 ∧
    see (withRegs chip48 [(1, 4), (15, 3)]) 0x81F6 (fun t => (t.reg 1, t.reg 15)) = some (2, 0) := by decide
/-- A37, A38 -/
theorem test_aluShiftLeft :
    see (withRegs State.reset [(1, 0x81), (2, 0x40)]) 0x812E (fun t => (t.reg 1, t.reg 15)) = some (0x80, 0) ∧
    see (withRegs chip48 [(1, 0x81), (2, 0x40)]) 0x812E (fun t => (t.reg 1, t.reg 15)) = some (2, 1) := by decide
/-- A41, A42 -/
theorem test_aluShiftLeft_vf :
    see (withRegs State.reset [(15, 0x7F), (2, 0x80)]) 0x8F2E (fun t => t.reg 15) = some 1 ∧
    see (withRegs chip48 [(15, 0x7F), (2, 0x80)]) 0x8F2E (fun t => t.reg 15) = some 0 := by decide
/-- A43 -/
theorem test_unknown_operator : see State.reset 0x8128 (fun t => (t.pc, t.v, t.faultStatus)) =
    some (0x202, State.reset.v, some (.unsupportedInstruction 0x8128)) := by decide

/-! ### Index and memory -/

/-- M1 -/
theorem test_setIndex : see { State.reset with i := 0xFFFF } 0xA2F0 (fun t => t.i) = some 0x2F0 := by decide
/-- M2, M7 -/
theorem test_addToIndex :
    see (withRegs { State.reset with i := 0x0FFE } [(2, 5)]) 0xF21E (fun t => (t.i, t.reg 15)) = some (0x1003, 1) ∧
    see (withRegs { State.reset with i := 0xFFFF } [(2, 2)]) 0xF21E (fun t => (t.i, t.reg 15)) = some (1, 0) := by decide
/-- M3, M8: VF is not cleared, and is read before it is set. -/
theorem test_addToIndex_vf :
    see (withRegs { State.reset with i := 0x300 } [(2, 5), (15, 1)]) 0xF21E (fun t => (t.i, t.reg 15)) = some (0x305, 1) ∧
    see (withRegs { State.reset with i := 0xFFF } [(15, 1)]) 0xFF1E (fun t => (t.i, t.reg 15)) = some (0x1000, 1) := by
  decide
/-- M12, M13: the low nibble only. -/
theorem test_fontCharacter :
    see (withRegs State.reset [(4, 0x1B)]) 0xF429 (fun t => t.i) = some 0x087 ∧
    see (withRegs State.reset [(4, 0xFF)]) 0xF429 (fun t => t.i) = some 0x09B := by decide
/-- M15 -/
theorem test_decimalConversion : see (withRegs { State.reset with i := 0x300 } [(0, 254)]) 0xF033
    (fun t => (t.bytesAt 0x300 3, t.i)) = some ([2, 5, 4], 0x300) := by decide
/-- M21: the bytes before the fault are written. -/
theorem test_decimalConversion_fault : see (withRegs { State.reset with i := 0xFFE } [(0, 0x7B)]) 0xF033
    (fun t => (t.bytesAt 0xFFE 2, t.i, t.faultStatus)) =
    some ([1, 2], 0xFFE, some (.invalidMemoryAddress 4096)) := by decide
/-- M24, M25 -/
theorem test_storeRegisters :
    see (withRegs { State.reset with i := 0x400 } [(0, 0x11), (1, 0x22), (2, 0x33)]) 0xF255
      (fun t => (t.bytesAt 0x400 4, t.i)) = some ([0x11, 0x22, 0x33, 0], 0x403) ∧
    see (withRegs { chip48 with i := 0x400 } [(0, 0x11), (1, 0x22), (2, 0x33)]) 0xF255
      (fun t => (t.bytesAt 0x400 4, t.i)) = some ([0x11, 0x22, 0x33, 0], 0x400) := by decide
/-- M30, with the registers at 1: the bytes before the fault are written and `I` stands. -/
theorem test_storeRegisters_fault : see { State.reset with i := 0xFF1, v := Vector.replicate 16 1 } 0xFF55
    (fun t => (t.bytesAt 0xFF0 16, t.i, t.faultStatus)) =
    some ([0, 1, 1, 1, 1, 1, 1, 1, 1, 1, 1, 1, 1, 1, 1, 1], 0xFF1, some (.invalidMemoryAddress 4096)) := by decide
/-- M31, M34: registers from memory, and the font in memory after reset. -/
theorem test_loadRegisters :
    see (withBytes { State.reset with i := 0x300 } 0x300 [2, 5, 4]) 0xF265
      (fun t => (t.reg 0, t.reg 1, t.reg 2, t.reg 3, t.i)) = some (2, 5, 4, 0, 0x303) ∧
    see { State.reset with i := 0x050 } 0xFF65 (fun t => (t.v.toList, t.i)) =
      some ([0xF0, 0x90, 0x90, 0x90, 0xF0, 0x20, 0x60, 0x20, 0x20, 0x70, 0xF0, 0x10, 0xF0, 0x80, 0xF0, 0xF0], 0x060) := by
  decide
/-- M33: the registers before the fault are loaded. -/
theorem test_loadRegisters_fault : see (withRegs (withBytes { State.reset with i := 0xFFF } 0xFFF [0xAA]) [(1, 0x77)]) 0xF165
    (fun t => (t.reg 0, t.reg 1, t.i, t.faultStatus)) =
    some (0xAA, 0x77, 0xFFF, some (.invalidMemoryAddress 4096)) := by decide

/-! ### Display -/

/-- DR4 and DR13: the origin wraps and the pixels clip. -/
theorem test_draw_clips :
    see (withRegs { State.reset with i := 0x050 } [(0, 0x7E), (1, 0x3E)]) 0xD015 (fun t => (t.screen, t.reg 15)) =
      some ([(62, 30), (63, 30), (62, 31)], 0) ∧
    see (withRegs (withBytes { State.reset with i := 0x300 } 0x300 [0xFF]) [(0, 0x3C)]) 0xD011
      (fun t => (t.screen, t.reg 15)) = some ([(60, 0), (61, 0), (62, 0), (63, 0)], 0) := by decide
/-- DR11 and DR9: a collision, and a row that is read although it would be clipped. -/
theorem test_draw_collision_and_fault :
    see (withBytes { State.reset with i := 0x300, screen := [(1, 0)] } 0x300 [0xC0]) 0xD011
      (fun t => (t.screen, t.reg 15)) = some ([(0, 0)], 1) ∧
    see (withRegs (withBytes { State.reset with i := 0xFFF } 0xFFF [0x80]) [(1, 0x1F), (15, 7)]) 0xD012
      (fun t => (t.screen, t.reg 15, t.faultStatus)) = some ([], 7, some (.invalidMemoryAddress 4096)) := by decide
/-- DR17 -/
theorem test_clearScreen : see (withRegs { State.reset with screen := [(1, 0), (5, 5)] } [(15, 1)]) 0x00E0
    (fun t => (t.screen, t.reg 15)) = some ([], 1) := by decide

/-! ### Timers, keys, random -/

/-- T1 -/
theorem test_getDelayTimer : see { State.reset with dt := 0x2A } 0xF307 (fun t => (t.reg 3, t.dt)) =
    some (0x2A, 0x2A) := by decide
/-- T2 -/
theorem test_setDelayTimer : see (withRegs State.reset [(3, 0x3C)]) 0xF315 (fun t => (t.dt, t.st)) =
    some (0x3C, 0) := by decide
/-- T3 -/
theorem test_setSoundTimer : see (withRegs State.reset [(3, 5)]) 0xF318 (fun t => (t.st, t.dt, t.soundOn)) =
    some (5, 0, true) := by decide
/-- T7, T8 -/
theorem test_getKey :
    see State.reset 0xF50A (fun t => (t.pc, t.v)) = some (0x200, State.reset.v) ∧
    see (State.reset.setKey 7 true) 0xF50A (fun t => (t.pc, t.reg 5)) = some (0x202, 7) := by decide
/-- T9: two keys, a free choice between them. -/
theorem test_getKey_choice : ∃ t, exec (.getKey 5) ((State.reset.setKey 3 true).setKey 9 true) = .next t ∧
    (t.reg 5 = 3 ∨ t.reg 5 = 9) := by
  rcases execGetKey_cases 5 ((State.reset.setKey 3 true).setKey 9 true) with ⟨h, _⟩ | ⟨k, hk, h⟩
  · exact absurd (h 3) (by decide)
  · refine ⟨_, h, ?_⟩
    rw [State.countDraw_reg, State.reg_setReg, if_pos rfl]
    clear h
    revert k
    decide
/-- T12 to T14: the draw under the mask, whatever the draw; under mask 0 the result is 0. -/
theorem test_random : (∃ t, exec (.random 3 0xFF) State.reset = .next t ∧ t.reg 3 = Config.randomByte 0) ∧
    ∃ t, exec (.random 3 0x00) State.reset = .next t ∧ t.reg 3 = 0 := by
  constructor
  · refine ⟨_, rfl, ?_⟩
    rw [State.countDraw_reg, State.reg_setReg, if_pos rfl]
    exact BitVec.and_allOnes
  · refine ⟨_, rfl, ?_⟩
    rw [State.countDraw_reg, State.reg_setReg, if_pos rfl]
    exact BitVec.and_zero

/-! ### Fetch and faults -/

/-- X2 and X7 -/
theorem test_fetch : see { State.reset with pc := 0xFFE } 0x0000 (fun t => (t.pc, t.faultStatus)) = some (0x1000, none) ∧
    see State.reset 0x1234 (fun t => t.pc) = some 0x234 := by decide
/-- X3, X4, X5 -/
theorem test_fetch_fault :
    see { State.reset with pc := 0xFFF } 0 (fun t => (t.pc, t.faultStatus)) =
      some (0xFFF, some (.invalidMemoryAddress 4096)) ∧
    see { State.reset with pc := 0x1000 } 0 (fun t => (t.pc, t.faultStatus)) =
      some (0x1000, some (.invalidMemoryAddress 4096)) ∧
    see { State.reset with pc := 0x1001 } 0 (fun t => t.faultStatus) = some (some (.invalidMemoryAddress 4097)) := by decide
/-- X8 -/
theorem test_faulted_stays : see { State.reset with faultStatus := some .stackUnderflow } 0x6001 id =
    some (State.withFetchWord { State.reset with faultStatus := some .stackUnderflow } 16 0x6001) := by decide

/-! ### Host events -/

/-- What `f` sees after one event. -/
def seeEvent {α : Type} (e : Event) (s : State) (f : State → α) : Option α :=
  match e.deliver s with
  | .next t => some (f t)
  | .fault _ => none
  | .refused _ => none

/-- T4, T6 -/
theorem test_tick : seeEvent .tick { State.reset with dt := 2, st := 1 } (fun t => (t.dt, t.st)) = some (1, 0) ∧
    seeEvent .tick State.reset (fun t => (t.dt, t.st)) = some (0, 0) := by decide
/-- T10, T11 -/
theorem test_keys : seeEvent (.keyDown 4) State.reset (fun t => (t.key 4, t.key 5)) = some (true, false) ∧
    seeEvent (.keyUp 4) (State.reset.setKey 4 true) (fun t => t.key 4) = some false := by decide
/-- 70_reset_and_hazards.md R191, 10_state.md R41: the ROM from 0x200, `pc` there, an earlier fault cleared. -/
theorem test_reset : seeEvent (.reset Config.default [0x60, 0xFE]) { chip48 with faultStatus := some .stackOverflow, dt := 9 }
    (fun t => (t.bytesAt 0x1FF 4, t.pc, t.dt, t.cfg.variant, t.faultStatus)) =
    some ([0, 0x60, 0xFE, 0], 0x200, 0, .cosmacVip, none) := by decide

/-! ## Witnesses: states and operands that meet the hypotheses of the statements, clause by clause -/

/-- The state of a step or a meaning that answers one. -/
def nextOf (o : Host.Outcome State Fault Refusal) : State :=
  match o with
  | .next t => t
  | .fault _ => State.reset
  | .refused _ => State.reset

/-- Whether there is such a state. -/
def answersNext (o : Host.Outcome State Fault Refusal) : Bool :=
  match o with
  | .next _ => true
  | .fault _ => false
  | .refused _ => false

theorem eq_next {o : Host.Outcome State Fault Refusal} (h : answersNext o = true) : ∃ t, o = .next t := by
  cases o with
  | next t => exact ⟨t, rfl⟩
  | fault f => cases h
  | refused r => cases h

theorem witness_DecodeOfEncode : (Instr.system 0xFFF).wf = true ∧ (Instr.jumpOffset 15 0xFFF).wf = true ∧
    (Instr.draw 15 15 15).wf = true := by decide

theorem witness_EncodeOfDecode : decode 0xDFFF = .instr (.draw 15 15 15) ∧ decode 0x0000 = .instr (.system 0) := by decide

theorem witness_UnsupportedSpace : inUnsupportedSpace 0x5121 = true ∧ inUnsupportedSpace 0xFFFF = true ∧
    inUnsupportedSpace 0x5120 = false ∧ inUnsupportedSpace 0x0000 = false := by decide

/-- The word of `ClearScreen` matches its own row and the row of `System`. -/
theorem witness_DecodeSelectsTableRow : decode 0x00E0 = .instr .clearScreen ∧
    0x00E0 &&& (tableRow (.system 0)).1 = (tableRow (.system 0)).2 := by decide

theorem witness_StepRunsDecodedInstruction :
    ∃ s : State, s.faultStatus = none ∧ s.pc.toNat + 1 < memSize ∧ s.pc = 0xFFE ∧
      decodeBytes (s.peek s.pc.toNat) (s.peek (s.pc.toNat + 1)) = .instr (.draw 0 1 5) :=
  ⟨State.withFetchWord { State.reset with pc := 0xFFE } 16 0xD015, by decide, by decide, by decide, by decide⟩

/-- `pc` at 4094, 4095, 4096 and 65535, with no fault. -/
theorem witness_FetchReadsHighByteFirst : (0xFFE : Word).toNat + 1 < 4096 ∧ (0xFFF : Word).toNat = 4095 ∧
    4096 ≤ (0x1000 : Word).toNat ∧ 4096 ≤ (0xFFFF : Word).toNat ∧ State.reset.faultStatus = none := by decide

theorem witness_UnsupportedWordFaultsWhenExecuted :
    ∃ s : State, s.faultStatus = none ∧ s.pc.toNat + 1 < memSize ∧ ∀ i, decode (s.wordAt s.pc.toNat) ≠ .instr i := by
  refine ⟨State.reset.withFetchWord 16 0x8128, by decide, by decide, fun i h => ?_⟩
  have hd : decode ((State.reset.withFetchWord 16 0x8128).wordAt (State.reset.withFetchWord 16 0x8128).pc.toNat) =
      .arithmeticUnknown 1 2 0x8128 := by decide
  rw [hd] at h
  cases h

theorem witness_FaultIsStickyUntilReset :
    ∃ s t u : State, s.faultStatus = some .stackOverflow ∧ Event.tick.deliver s = .next t ∧
      (Event.reset Config.default []).deliver s = .next u :=
  ⟨{ State.reset with faultStatus := some .stackOverflow }, _, _, rfl, rfl, rfl⟩

/-- A state that is not the reset state meets the invariant: memory, screen and stack not empty. -/
theorem witness_StepKeepsInvariant :
    ∃ s : State, s.Inv ∧ s.stack ≠ [] ∧ s.screen ≠ [] ∧ s.mem ≠ [] ∧ ∃ t, step s = .next t :=
  ⟨State.withFetchWord { State.reset with stack := [4096], screen := [(63, 31)] } 16 0x00EE,
    ⟨by decide, by decide, by decide, by decide, fun w hw => by rw [List.mem_singleton.mp hw]; decide⟩, by decide, by decide,
    by decide, eq_next (by decide)⟩

theorem witness_EventRunsKeepInvariant :
    State.reset.Inv ∧
    ∃ t, deliverAll [.keyDown 3, .step, .tick, .reset Config.default [0x00, 0xE0], .step, .keyUp 3] State.reset = .next t :=
  ⟨⟨by decide, by decide, by decide, by decide, fun w hw => by cases hw⟩, eq_next (by decide)⟩

theorem witness_StepKeepsKeysAndConfiguration : ∃ t, step State.reset = .next t := ⟨_, rfl⟩

theorem witness_MemoryAndScreenWriters :
    (∃ s t : State, exec (.storeRegisters 0) s = .next t ∧ t.peek 0x300 ≠ s.peek 0x300) ∧
    (∃ s t : State, exec .clearScreen s = .next t ∧ t.pixel 63 31 ≠ s.pixel 63 31) :=
  ⟨⟨withRegs { State.reset with i := 0x300 } [(0, 1)], _, rfl, by decide⟩,
    ⟨{ State.reset with screen := [(63, 31)] }, _, rfl, by decide⟩⟩

theorem witness_StackWriters : ∃ s t : State, exec (.subroutineCall 0x300) s = .next t ∧ t.stack ≠ s.stack :=
  ⟨State.reset, _, rfl, by decide⟩

theorem witness_TimerWriters :
    (∃ s t : State, exec (.setDelayTimer 1) s = .next t ∧ t.dt ≠ s.dt) ∧
    (∃ s t : State, exec (.setSoundTimer 1) s = .next t ∧ t.st ≠ s.st) :=
  ⟨⟨withRegs State.reset [(1, 7)], _, rfl, by decide⟩, ⟨withRegs State.reset [(1, 7)], _, rfl, by decide⟩⟩

theorem witness_IndexWriters :
    (∃ s t : State, exec (.setIndex 0x300) s = .next t ∧ t.i ≠ s.i) ∧
    (∃ s t : State, s.cfg.variant = .cosmacVip ∧ exec (.loadRegisters 2) s = .next t ∧ t.i ≠ s.i) :=
  ⟨⟨State.reset, _, rfl, by decide⟩, ⟨State.reset, _, rfl, rfl, by decide⟩⟩

theorem witness_RegisterAndFlagWriters :
    (∃ s t : State, exec (.setRegister 14 7) s = .next t ∧ t.reg 14 ≠ s.reg 14) ∧
    (∃ s t : State, exec (.aluAdd 1 2) s = .next t ∧ t.reg 15 ≠ s.reg 15) :=
  ⟨⟨State.reset, _, rfl, by decide⟩, ⟨withRegs State.reset [(1, 255), (2, 1)], _, rfl, by decide⟩⟩

theorem witness_ProgramCounterWriters :
    (∃ s t : State, exec (.skipEqualValue 0 0) s = .next t ∧ t.pc ≠ s.pc) ∧
    (∃ s t : State, exec (.getKey 0) s = .next t ∧ t.pc ≠ s.pc) :=
  ⟨⟨State.reset, _, rfl, by decide⟩, ⟨State.reset, State.reset.setPc 0x1FE, rfl, by decide⟩⟩

theorem witness_VariantAltersFiveEncodings : ∃ t, exec (.decimalConversion 0) State.reset = .next t ∧
    (∀ x y, (Instr.decimalConversion 0) ≠ .aluShiftRight x y) ∧ (∀ x y, (Instr.decimalConversion 0) ≠ .aluShiftLeft x y) ∧
    (∀ x nnn, (Instr.decimalConversion 0) ≠ .jumpOffset x nnn) ∧ (∀ x, (Instr.decimalConversion 0) ≠ .storeRegisters x) ∧
    (∀ x, (Instr.decimalConversion 0) ≠ .loadRegisters x) :=
  ⟨_, rfl, by simp, by simp, by simp, by simp, by simp⟩

/-- Each fault an instruction raises, from a state with none. -/
theorem witness_FaultCauses :
    (nextOf (exec .subroutineReturn State.reset)).faultStatus = some .stackUnderflow ∧
    (nextOf (exec (.subroutineCall 0) { State.reset with stack := List.replicate 16 0 })).faultStatus =
      some .stackOverflow ∧
    (nextOf (exec (.skipIfKeyPressed 0) (withRegs State.reset [(0, 16)]))).faultStatus = some (.invalidKey 16) ∧
    (nextOf (exec (.draw 0 0 1) { State.reset with i := 0x1000 })).faultStatus = some (.invalidMemoryAddress 4096) ∧
    State.reset.faultStatus = none := by decide

/-- A faulting conversion, store and load with one element in memory and with none, and a fault of another instruction. -/
theorem witness_FaultPrecision :
    (∃ s t : State, s.faultStatus = none ∧ s.i.toNat ≤ 4095 ∧ s.i.toNat + 1 ≤ 4095 ∧
      exec (.decimalConversion 0) s = .next t ∧ t.faultStatus ≠ none ∧ t.peek 0xFFE ≠ s.peek 0xFFE) ∧
    (∃ s t : State, s.faultStatus = none ∧ s.i.toNat + (0 : Nibble).toNat ≤ 4095 ∧
      4095 < s.i.toNat + (1 : Nibble).toNat ∧ exec (.storeRegisters 1) s = .next t ∧ t.faultStatus ≠ none ∧
      t.peek 0xFFF ≠ s.peek 0xFFF) ∧
    (∃ s t : State, s.faultStatus = none ∧ s.i.toNat + (0 : Nibble).toNat ≤ 4095 ∧
      4095 < s.i.toNat + (1 : Nibble).toNat ∧ exec (.loadRegisters 1) s = .next t ∧ t.faultStatus ≠ none ∧
      t.reg 0 ≠ s.reg 0) ∧
    (∃ s t : State, s.faultStatus = none ∧ s.i = 0x1000 ∧ exec (.storeRegisters 0) s = .next t ∧ t.faultStatus ≠ none) ∧
    ∃ s t : State, s.faultStatus = none ∧ exec .subroutineReturn s = .next t ∧ t.faultStatus ≠ none :=
  ⟨⟨withRegs { State.reset with i := 0xFFE } [(0, 0x7B)], _, by decide, by decide, by decide, rfl, by decide, by decide⟩,
    ⟨withRegs { State.reset with i := 0xFFF } [(0, 0x12)], _, by decide, by decide, by decide, rfl, by decide, by decide⟩,
    ⟨withBytes { State.reset with i := 0xFFF } 0xFFF [0xAA], _, by decide, by decide, by decide, rfl, by decide, by decide⟩,
    ⟨{ State.reset with i := 0x1000 }, _, rfl, rfl, rfl, by decide⟩, ⟨State.reset, _, rfl, rfl, by decide⟩⟩

theorem witness_SystemOnlyAdvances :
    ∃ s : State, s.faultStatus = none ∧ s.pc.toNat + 1 < memSize ∧ (0xFFF : Addr12) ≠ 0x0E0 ∧ (0xFFF : Addr12) ≠ 0x0EE ∧
      s.wordAt s.pc.toNat = wordNNN 0x0 0xFFF :=
  ⟨State.withFetchWord { State.reset with pc := 0xFFE } 16 0x0FFF, by decide, by decide, by decide, by decide, by decide⟩

theorem witness_ReturnPopsProgramCounter :
    (∃ (s : State) (w : Word) (ws : List Word), s.stack = w :: ws) ∧ State.reset.stack = [] :=
  ⟨⟨{ State.reset with stack := [0x400, 0x300] }, 0x400, [0x300], rfl⟩, rfl⟩

/-- 15 entries and 16: the two sides of the limit. -/
theorem witness_CallPushesReturnAddress :
    (∃ s : State, s.stack.length < 16 ∧ s.stack.length = 15) ∧ ∃ s : State, s.stack.length = 16 :=
  ⟨⟨{ State.reset with stack := List.replicate 15 0x202 }, by decide, by decide⟩,
    ⟨{ State.reset with stack := List.replicate 16 0x202 }, by decide⟩⟩

theorem witness_JumpOffsetAddsRegister : State.reset.cfg.variant = .cosmacVip ∧ chip48.cfg.variant = .chip48 := by decide

theorem witness_CallThenReturnRestores : ∃ s : State, s.stack.length < 16 ∧ s.stack.length = 15 :=
  ⟨{ State.reset with stack := List.replicate 15 0x202 }, by decide, by decide⟩

theorem witness_SkipOnRegister : (1 : Nibble) ≠ 0 ∧ (15 : Nibble) ≠ 0 := by decide

/-- The largest key and the smallest value that names none. -/
theorem witness_SkipOnKey :
    (∃ s : State, (s.reg 3).toNat = (15 : Nibble).toNat) ∧ ∃ s : State, 15 < (s.reg 3).toNat ∧ s.reg 3 = 16 :=
  ⟨⟨withRegs State.reset [(3, 15)], by decide⟩, ⟨withRegs State.reset [(3, 16)], by decide, by decide⟩⟩

/-- A destination that is not VF, and one that is, for the statements that tell them apart. -/
theorem witness_AddSetsCarry : (14 : Nibble) ≠ 15 ∧ (withRegs State.reset [(14, 255)]).reg 14 = 255 := by decide

theorem witness_SubtractGivesAbsoluteDifference : (0 : Nibble) ≠ 15 := by decide

theorem witness_ShiftsByVariant :
    (∃ (s : State) (src : Byte), s.cfg.variant = .cosmacVip ∧ (s.cfg.variant = .cosmacVip → src = s.reg 2) ∧
      (s.cfg.variant = .chip48 → src = s.reg 1)) ∧
    ∃ (s : State) (src : Byte), s.cfg.variant = .chip48 ∧ (s.cfg.variant = .cosmacVip → src = s.reg 2) ∧
      (s.cfg.variant = .chip48 → src = s.reg 1) :=
  ⟨⟨withRegs State.reset [(2, 0x81)], 0x81, by decide⟩, ⟨withRegs chip48 [(1, 0x81)], 0x81, by decide⟩⟩

/-- The last three bytes of memory, and one byte past them. -/
theorem witness_DecimalConversionStoresDigits :
    (∃ s : State, s.i.toNat + 2 = 4095) ∧ (∃ s : State, 4095 < s.i.toNat + 2 ∧ s.i = 4094) ∧
    ∃ s : State, 4095 < s.i.toNat + 2 ∧ s.i = 0xFFFF :=
  ⟨⟨{ State.reset with i := 4093 }, by decide⟩, ⟨{ State.reset with i := 4094 }, by decide⟩,
    ⟨{ State.reset with i := 0xFFFF }, by decide⟩⟩

theorem witness_StoreRegistersWritesBlock :
    (∃ s : State, s.i.toNat + (15 : Nibble).toNat ≤ 4095 ∧ s.i = 0xFF0) ∧
    (∃ s : State, 4095 < s.i.toNat + (15 : Nibble).toNat ∧ s.i = 0xFF1) ∧ (3 : Nibble).toNat ≤ (3 : Nibble).toNat :=
  ⟨⟨{ State.reset with i := 0xFF0 }, by decide⟩, ⟨{ State.reset with i := 0xFF1 }, by decide⟩, by decide⟩

theorem witness_LoadRegistersReadsBlock :
    (∃ s : State, s.i.toNat + (0 : Nibble).toNat ≤ 4095 ∧ s.i = 0xFFF) ∧
    ∃ s : State, 4095 < s.i.toNat + (0 : Nibble).toNat ∧ s.i = 0x1000 :=
  ⟨⟨{ State.reset with i := 0xFFF }, by decide⟩, ⟨{ State.reset with i := 0x1000 }, by decide⟩⟩

/-- 4095 is the last address, 4096 the first above it; a byte beside the one written. -/
theorem witness_MemoryIsBoundsCheckedBytes : 4095 ≤ 4095 ∧ 4095 < 4096 ∧ 4094 ≠ 4095 := by decide

theorem witness_StoreIsSeenByNextFetch :
    ∃ s : State, s.i.toNat + (1 : Nibble).toNat ≤ 4095 ∧ (1 : Nibble).toNat = (0 : Nibble).toNat + 1 ∧
      (1 : Nibble).toNat ≤ (1 : Nibble).toNat ∧ s.pc.toNat = s.i.toNat + (0 : Nibble).toNat :=
  ⟨{ State.reset with i := 0x200 }, by decide⟩

/-- Glyph 0 at the font base: a drawn pixel that is off and one that is on, an undrawn pixel, all pixels off. -/
theorem witness_DrawFlipsCoveredPixels :
    (∃ s : State, s.i.toNat + (5 : Nibble).toNat ≤ 4096 ∧ drawsOn s 0 1 5 3 0 ∧ ¬drawsOn s 0 1 5 4 0 ∧
      ∀ px py, drawsOn s 0 1 5 px py → s.pixel px py = false) ∧
    (∃ s : State, s.i.toNat + (5 : Nibble).toNat ≤ 4096 ∧ drawsOn s 0 1 5 3 0 ∧ s.pixel 3 0 = true) ∧
    (∃ s : State, s.i.toNat + (15 : Nibble).toNat = 4096) ∧
    ∃ s : State, (15 : Nibble) ≠ 0 ∧ 4096 < s.i.toNat + (15 : Nibble).toNat ∧ s.i = 0xFF2 := by
  refine ⟨⟨{ State.reset with i := 0x050 }, by decide, ⟨by decide, by decide⟩, fun h => absurd h.1 (by decide),
    fun _ _ _ => rfl⟩, ⟨{ State.reset with i := 0x050, screen := [(3, 0)] }, by decide, ⟨by decide, by decide⟩, by decide⟩,
    ⟨{ State.reset with i := 0xFF1 }, by decide⟩, ⟨{ State.reset with i := 0xFF2 }, by decide⟩⟩

theorem witness_DrawTwiceRestoresScreen :
    ∃ s t : State, s.i.toNat + (5 : Nibble).toNat ≤ 4096 ∧ exec (.draw 0 1 5) s = .next t ∧ t.reg 0 = s.reg 0 ∧
      t.reg 1 = s.reg 1 ∧ drawsOn s 0 1 5 3 0 ∧ ∀ px py, drawsOn s 0 1 5 px py → s.pixel px py = false :=
  ⟨{ State.reset with i := 0x050 }, _, by decide, rfl, by decide, by decide, ⟨by decide, by decide⟩, fun _ _ _ => rfl⟩

/-- No key, one key and two keys; and the step at the wait. -/
theorem witness_GetKeyWaitsForKey :
    (∃ s : State, s.faultStatus = none ∧ s.pc.toNat + 1 < memSize ∧ s.wordAt s.pc.toNat = wordXNN 0xF 5 0x0A ∧
      ∀ k, s.key k = false) ∧
    ∃ s : State, s.key 0 = true ∧ s.key 15 = true :=
  ⟨⟨State.reset.withFetchWord 16 0xF50A, by decide, by decide, by decide, by decide⟩,
    ⟨(State.reset.setKey 0 true).setKey 15 true, by decide, by decide⟩⟩

theorem witness_RandomMasksFreeByte : (0x0F : Byte).getLsbD 4 = false := by decide

theorem witness_ResetBuildsStartState :
    Config.default.WellFormed [(0x00 : Byte), 0xE0].length ∧ [(0x00 : Byte), 0xE0].length ≤ 3584 ∧
    Config.default.WellFormed 3584 ∧ Config.WellFormed { Config.default with fontBase := 0xFB0 } 0xDB0 := by decide

/-- Accepted and refused: the font region up to the last byte of memory, past it, and over the ROM; no screen; a ROM of 3585
bytes. -/
theorem witness_ResetRefusesIllFormed :
    (0xFB0 : Addr12).toNat + 80 ≤ 4096 ∧ ¬((0xFB1 : Addr12).toNat + 80 ≤ 4096) ∧
    (((0x1FF : Addr12).toNat ≤ 0x200 ∧ 0x200 < (0x1FF : Addr12).toNat + 80) ∧ (0x200 ≤ 0x200 ∧ 0x200 < 0x200 + 1)) ∧
    ¬(1 ≤ ({ Config.default with screenW := 0 } : Config).screenW) ∧ ¬((List.replicate 3585 (0 : Byte)).length ≤ 3584) := by
  refine ⟨by decide, by decide, by decide, by decide, ?_⟩
  rw [List.length_replicate]
  decide

/-- `Jump(0x200)` at 0x200, and at the last even address. -/
theorem witness_SettledMachineStays :
    (∃ s : State, s.SettledAt 0x200 ∧ (0x200 : Addr12).toNat < 4095) ∧
    ∃ s : State, s.SettledAt 0xFFE ∧ (0xFFE : Addr12).toNat < 4095 :=
  ⟨⟨State.reset.withFetchWord 16 0x1200, ⟨by decide, by decide, by decide⟩, by decide⟩,
    ⟨State.withFetchWord { State.reset with pc := 0xFFE } 16 0x1FFE, ⟨by decide, by decide, by decide⟩, by decide⟩⟩

end Sys2Proof.Tests
end

section
/-! PROOFS. The invariant along every run of events (00_scope.md R13): a rule per part of the state that the invariant
speaks of, then the meanings, the step, the event, and the list of events. -/

namespace Sys2Proof.Machine

/-! ## The invariant under the state's updates -/

section InvRules
variable {s t : State}

/-- An update that keeps the five parts the invariant speaks of keeps the invariant. -/
theorem State.Inv.congr (h : s.Inv) (hcfg : t.cfg = s.cfg) (hmem : t.mem = s.mem) (hscreen : t.screen = s.screen)
    (hstack : t.stack = s.stack) (hpc : t.pc = s.pc) : t.Inv := by
  simpa only [State.Inv, State.PcBounded, hcfg, hmem, hscreen, hstack, hpc] using h

theorem State.Inv.pc_le (h : s.Inv) : s.pc.toNat ≤ 0x10FE := by
  obtain ⟨-, -, -, hpc, -⟩ := h
  exact hpc

theorem State.Inv.setPc (h : s.Inv) {w : Word} (hw : w.toNat ≤ 0x10FE) : (s.setPc w).Inv := by
  obtain ⟨hmem, hscreen, hlen, -, hentries⟩ := h
  exact ⟨hmem, hscreen, hlen, hw, hentries⟩

theorem State.Inv.withMem (h : s.Inv) {m : Memory} (hm : Memory.wf s.cfg s.mem → Memory.wf s.cfg m) :
    ({ s with mem := m } : State).Inv := by
  obtain ⟨hmem, hrest⟩ := h
  exact ⟨hm hmem, hrest⟩

theorem State.Inv.withScreen (h : s.Inv) {l : Screen} (hl : Screen.wf s.cfg s.screen → Screen.wf s.cfg l) :
    ({ s with screen := l } : State).Inv := by
  obtain ⟨hmem, hscreen, hrest⟩ := h
  exact ⟨hmem, hl hscreen, hrest⟩

theorem State.Inv.withRegs (h : s.Inv) (v : Vector Byte 16) : ({ s with v := v } : State).Inv :=
  h.congr rfl rfl rfl rfl rfl

theorem State.Inv.withFault (h : s.Inv) (f : Option Fault) : ({ s with faultStatus := f } : State).Inv :=
  h.congr rfl rfl rfl rfl rfl

theorem State.Inv.setReg (h : s.Inv) (r : Nibble) (b : Byte) : (s.setReg r b).Inv := h.congr rfl rfl rfl rfl rfl

theorem State.Inv.setIndex (h : s.Inv) (w : Word) : (s.setIndex w).Inv := h.congr rfl rfl rfl rfl rfl

theorem State.Inv.advanceIndex (h : s.Inv) (x : Nibble) : (s.advanceIndex x).Inv := by
  rw [State.advanceIndex_eq]
  exact h.setIndex _

/-- A skip moves `pc` by at most 2 more. -/
theorem State.Inv.skip (h : s.Inv) (hpc : s.pc.toNat ≤ memSize) (c : Bool) :
    (s.setPc (if c then s.pc + 2 else s.pc)).Inv := by
  refine h.setPc ?_
  unfold memSize at hpc
  split <;> bv_omega

/-- The return address popped was bounded as a stack entry (10_state.md R24, R27). -/
theorem State.Inv.popTo (h : s.Inv) {w : Word} {ws : List Word} (hst : s.stack = w :: ws) :
    (({ s with stack := ws } : State).setPc w).Inv := by
  obtain ⟨hmem, hscreen, hlen, -, hentries⟩ := h
  rw [hst] at hlen hentries
  have hw : w.toNat ≤ 4096 := hentries w List.mem_cons_self
  exact ⟨hmem, hscreen, Nat.le_of_succ_le hlen, hw.trans (by decide), fun u hu => hentries u (List.mem_cons_of_mem w hu)⟩

/-- The return address pushed lies in memory or just after it (40_flow.md R103). -/
theorem State.Inv.pushPc (h : s.Inv) (hlen : s.stack.length < stackCap) (hpc : s.pc.toNat ≤ memSize) :
    ({ s with stack := s.pc :: s.stack } : State).Inv := by
  obtain ⟨hmem, hscreen, -, hbound, hentries⟩ := h
  exact ⟨hmem, hscreen, hlen, hbound, List.forall_mem_cons.mpr ⟨hpc, hentries⟩⟩

end InvRules

theorem Screen.wf_nil (c : Config) : Screen.wf c [] := ⟨.nil, fun _ hp => absurd hp List.not_mem_nil⟩

/-! ## The targets of the jumps (40_flow.md R102, R104) -/

theorem immediateWord_le (nnn : Addr12) : (immediateWord nnn).toNat ≤ 0x10FE := by
  rw [immediateWord, BitVec.toNat_setWidth]
  omega

theorem jumpOffsetTarget_le (nnn : Addr12) (b : Byte) : (jumpOffsetTarget nnn b).toNat ≤ 0x10FE := by
  rw [jumpOffsetTarget, BitVec.toNat_ofNat]
  omega

/-! ## The meanings that branch -/

section Meanings
variable {s t : State}

theorem execSubroutineReturn_keeps_inv (hinv : s.Inv) (h : execSubroutineReturn s = .next t) : t.Inv := by
  rcases execSubroutineReturn_cases s with ⟨-, e⟩ | ⟨w, ws, hst, e⟩ <;> obtain rfl := Host.Outcome.next.inj (e.symm.trans h)
  · exact hinv.withFault _
  · exact hinv.popTo hst

theorem execSubroutineCall_keeps_inv {nnn : Addr12} (hinv : s.Inv) (hpc : s.pc.toNat ≤ memSize)
    (h : execSubroutineCall nnn s = .next t) : t.Inv := by
  rcases execSubroutineCall_cases nnn s with ⟨hlen, e⟩ | ⟨-, e⟩ <;> obtain rfl := Host.Outcome.next.inj (e.symm.trans h)
  · exact (hinv.pushPc hlen hpc).setPc (immediateWord_le nnn)
  · exact hinv.withFault _

theorem skipIf_keeps_inv {c : Bool} (hinv : s.Inv) (hpc : s.pc.toNat ≤ memSize)
    (h : (.next (s.skipIf c) : Host.Outcome State Fault Refusal) = .next t) : t.Inv := by
  obtain rfl := Host.Outcome.next.inj h
  rw [State.skipIf_eq]
  exact hinv.skip hpc c

theorem skipIfKey_keeps_inv {x : Nibble} {pressed : Bool} (hinv : s.Inv) (hpc : s.pc.toNat ≤ memSize)
    (h : s.skipIfKey x pressed = .next t) : t.Inv := by
  rcases State.skipIfKey_cases s x pressed with ⟨k, -, e⟩ | ⟨-, e⟩ <;> obtain rfl := Host.Outcome.next.inj (e.symm.trans h)
  · exact hinv.skip hpc _
  · exact hinv.withFault _

theorem execGetKey_keeps_inv {x : Nibble} (hinv : s.Inv) (hlo : 2 ≤ s.pc.toNat) (h : execGetKey x s = .next t) :
    t.Inv := by
  rcases execGetKey_cases x s with ⟨-, e⟩ | ⟨k, -, e⟩ <;> obtain rfl := Host.Outcome.next.inj (e.symm.trans h)
  · have hbound := hinv.pc_le
    exact hinv.setPc (by bv_omega)
  · exact hinv.congr rfl rfl rfl rfl rfl

theorem execAddToIndex_keeps_inv {x : Nibble} (hinv : s.Inv) (h : execAddToIndex x s = .next t) : t.Inv := by
  obtain rfl := Host.Outcome.next.inj h
  split
  · exact (hinv.setIndex _).setReg vf _
  · exact hinv.setIndex _

theorem execDraw_keeps_inv {x y n : Nibble} (hinv : s.Inv) (h : execDraw x y n s = .next t) : t.Inv := by
  rcases execDraw_cases x y n s with ⟨-, e⟩ | ⟨-, e⟩ <;> obtain rfl := Host.Outcome.next.inj (e.symm.trans h)
  · obtain ⟨l, b, hdraw, hl⟩ := s.drawAt_eq (s.reg x) (s.reg y) (s.bytesAt s.i.toNat n.toNat)
    rw [hdraw]
    exact (hinv.withScreen hl).setReg vf _
  · exact hinv.withFault _

theorem execDecimalConversion_keeps_inv {x : Nibble} (hinv : s.Inv) (h : execDecimalConversion x s = .next t) :
    t.Inv := by
  rcases execDecimalConversion_cases x s with ⟨m, e, hm⟩ | ⟨m, -, e, hm, -⟩ <;>
    obtain rfl := Host.Outcome.next.inj (e.symm.trans h)
  · exact hinv.withMem hm
  · exact (hinv.withMem hm).withFault _

theorem execStoreRegisters_keeps_inv {x : Nibble} (hinv : s.Inv) (h : execStoreRegisters x s = .next t) : t.Inv := by
  rcases execStoreRegisters_cases x s with ⟨m, e, hm⟩ | ⟨m, -, e, hm, -⟩ <;>
    obtain rfl := Host.Outcome.next.inj (e.symm.trans h)
  · exact (hinv.withMem hm).advanceIndex x
  · exact (hinv.withMem hm).withFault _

theorem execLoadRegisters_keeps_inv {x : Nibble} (hinv : s.Inv) (h : execLoadRegisters x s = .next t) : t.Inv := by
  rcases execLoadRegisters_cases x s with ⟨v, e, -⟩ | ⟨v, -, e, -⟩ <;>
    obtain rfl := Host.Outcome.next.inj (e.symm.trans h)
  · exact (hinv.withRegs v).advanceIndex x
  · exact (hinv.withRegs v).withFault _

/-! ## Every meaning, every step -/

/-- The bounds of `pc` are those the fetch advance leaves (00_scope.md R12): `GetKey` needs the lower one, the skips and
the call the upper one. -/
theorem exec_keeps_inv {i : Instr} (hinv : s.Inv) (hlo : 2 ≤ s.pc.toNat) (hhi : s.pc.toNat ≤ memSize)
    (h : exec i s = .next t) : t.Inv := by
  cases i with
  | clearScreen =>
    obtain rfl := Host.Outcome.next.inj h
    exact hinv.withScreen fun _ => Screen.wf_nil s.cfg
  | subroutineReturn => exact execSubroutineReturn_keeps_inv hinv h
  | jump nnn =>
    obtain rfl := Host.Outcome.next.inj h
    exact hinv.setPc (immediateWord_le nnn)
  | subroutineCall nnn => exact execSubroutineCall_keeps_inv hinv hhi h
  | jumpOffset x nnn =>
    obtain rfl := Host.Outcome.next.inj h
    exact hinv.setPc (jumpOffsetTarget_le nnn _)
  | skipEqualValue x nn => exact skipIf_keeps_inv hinv hhi h
  | skipNotEqualValue x nn => exact skipIf_keeps_inv hinv hhi h
  | skipEqualRegister x y => exact skipIf_keeps_inv hinv hhi h
  | skipNotEqualRegister x y => exact skipIf_keeps_inv hinv hhi h
  | skipIfKeyPressed x => exact skipIfKey_keeps_inv hinv hhi h
  | skipIfKeyReleased x => exact skipIfKey_keeps_inv hinv hhi h
  | getKey x => exact execGetKey_keeps_inv hinv hlo h
  | addToIndex x => exact execAddToIndex_keeps_inv hinv h
  | draw x y n => exact execDraw_keeps_inv hinv h
  | decimalConversion x => exact execDecimalConversion_keeps_inv hinv h
  | storeRegisters x => exact execStoreRegisters_keeps_inv hinv h
  | loadRegisters x => exact execLoadRegisters_keeps_inv hinv h
  | _ =>
    -- The others write registers, `I`, a timer or the count of draws: no part the invariant speaks of.
    obtain rfl := Host.Outcome.next.inj h
    exact hinv.congr rfl rfl rfl rfl rfl

/-- A word is fetched below 4095, so the advanced `pc` is between 2 and 4096. -/
theorem step_keeps_inv (hinv : s.Inv) (h : step s = .next t) : t.Inv := by
  rcases step_cases h with ⟨-, rfl⟩ | ⟨-, -, rfl⟩ | ⟨-, hpc, hexec⟩
  · exact hinv
  · exact hinv.withFault _
  · have hadv : s.advance.pc.toNat = s.pc.toNat + 2 := by
      rw [State.advance_eq, State.setPc_pc]
      unfold memSize at hpc
      bv_omega
    have hhi : s.advance.pc.toNat ≤ memSize := by omega
    have hinv' : s.advance.Inv := hinv.setPc (hhi.trans (by decide))
    rcases execWord_cases hexec with ⟨i, -, hi⟩ | ⟨w, rfl⟩
    · exact exec_keeps_inv hinv' (by omega) hhi hi
    · exact hinv'.withFault _

end Meanings

/-! ## Events -/

/-- The state of an accepted `Reset` (70_reset_and_hazards.md R190, R191). -/
theorem resetState_inv (c : Config) (rom : List Byte) (draws : Nat) (h : rom.length ≤ romMax) :
    (resetState c rom draws).Inv := by
  have hrom : progBase + rom.length ≤ memSize := Nat.add_le_add_left h progBase
  have hmem : Memory.wf c (loadBytes c [] progBase rom) := (loadBytes_spec c [] progBase rom hrom).1 (Memory.wf_nil c)
  have hpc : (0x200 : Word).toNat ≤ 0x10FE := by decide
  exact ⟨hmem, Screen.wf_nil c, Nat.zero_le _, hpc, fun _ hw => absurd hw List.not_mem_nil⟩

/-- A `Reset` that answers a state had a ROM that fits, and answers the state it builds. -/
theorem deliver_reset_next {c : Config} {rom : List Byte} {s t : State} (h : (Event.reset c rom).deliver s = .next t) :
    rom.length ≤ romMax ∧ t = resetState c rom s.draws := by
  simp only [Event.deliver] at h
  split_ifs at h with hlen hwf
  exact ⟨Nat.not_lt.mp hlen, (Host.Outcome.next.inj h).symm⟩

theorem deliver_keeps_inv {e : Event} {s t : State} (hinv : s.Inv) (h : e.deliver s = .next t) : t.Inv := by
  cases e with
  | reset c rom =>
    obtain ⟨hlen, rfl⟩ := deliver_reset_next h
    exact resetState_inv c rom s.draws hlen
  | step => exact step_keeps_inv hinv h
  | tick | keyDown | keyUp =>
    obtain rfl := Host.Outcome.next.inj h
    exact hinv.congr rfl rfl rfl rfl rfl

/-- A run that answers a state answers one after its first event. -/
theorem deliverAll_cons_next {e : Event} {es : List Event} {s t : State} (h : deliverAll (e :: es) s = .next t) :
    ∃ u, e.deliver s = .next u ∧ deliverAll es u = .next t := by
  rw [deliverAll] at h
  split at h
  · next u hu => exact ⟨u, hu, h⟩
  · cases h
  · cases h

theorem deliverAll_keeps_inv {es : List Event} {s t : State} (hinv : s.Inv) (h : deliverAll es s = .next t) : t.Inv := by
  induction es generalizing s with
  | nil => exact Host.Outcome.next.inj h ▸ hinv
  | cons e es ih =>
    obtain ⟨u, hu, hrest⟩ := deliverAll_cons_next h
    exact ih (deliver_keeps_inv hinv hu) hrest

/-- Settles O13, by induction on the list of events. -/
theorem eventRunsKeepInvariant : Obligations.EventRunsKeepInvariant :=
  fun _ _ _ hinv h => deliverAll_keeps_inv hinv h

end Sys2Proof.Machine
end

section
/-! PROOFS. The variant alters five instructions and no other (00_scope.md R6): memory, the stack and every other meaning
commute with the selection of a variant. -/

namespace Sys2Proof.Machine

/-- `g` on the state that an outcome answers. -/
def mapNext (g : State → State) : Host.Outcome State Fault Refusal → Host.Outcome State Fault Refusal
  | .next s => .next (g s)
  | .fault f => .fault f
  | .refused r => .refused r

/-- A meaning does the same under every variant: selecting one before it is selecting it after. -/
def IgnoresVariant (f : State → Host.Outcome State Fault Refusal) : Prop :=
  ∀ (s : State) (v : Variant), f (withVariant s v) = mapNext (fun t => withVariant t v) (f s)

/-! ## The shared operations under another variant -/

section Operations
variable (s : State) (v : Variant)

/-- The reset contents depend on the font alone (10_state.md R41). -/
theorem read_withVariant (c : Config) (m : Memory) (a : Nat) :
    Memory.read { c with variant := v } m a = Memory.read c m a := by
  induction m with
  | nil => rfl
  | cons e m ih => simp only [Memory.read, ih]

theorem peek_withVariant (a : Nat) : (withVariant s v).peek a = s.peek a := read_withVariant v s.cfg s.mem a

theorem bytesAt_withVariant (a n : Nat) : (withVariant s v).bytesAt a n = s.bytesAt a n := by
  simp only [State.bytesAt, peek_withVariant]

theorem readBytes_withVariant (a n : Nat) : (withVariant s v).readBytes a n = s.readBytes a n := by
  simp only [State.readBytes_eq, bytesAt_withVariant]

theorem poke_withVariant (a : Nat) (w : Byte) : (withVariant s v).poke a w = withVariant (s.poke a w) v := rfl

theorem skipIf_withVariant (c : Bool) : (withVariant s v).skipIf c = withVariant (s.skipIf c) v := by
  cases c <;> rfl

/-- A block write ends the same way under another variant, at its end or at the fault. -/
theorem settle_writeBytes_withVariant (a : Nat) (bs : List Byte) :
    settle ((withVariant s v).writeBytes a bs) = mapNext (fun t => withVariant t v) (settle (s.writeBytes a bs)) := by
  induction bs generalizing s a with
  | nil => rfl
  | cons b bs ih =>
    rw [State.writeBytes, State.writeBytes]
    by_cases ha : a < memSize
    · rw [State.writeByte_in _ b ha, State.writeByte_in _ b ha, poke_withVariant]
      exact ih (s.poke a b) (a + 1)
    · rw [State.writeByte_out _ b (Nat.not_lt.mp ha), State.writeByte_out _ b (Nat.not_lt.mp ha)]
      rfl

end Operations

/-! ## The meanings that branch -/

theorem execSubroutineReturn_ignoresVariant : IgnoresVariant execSubroutineReturn := by
  intro s v
  rcases execSubroutineReturn_cases s with ⟨hst, e⟩ | ⟨w, ws, hst, e⟩
  · rw [e, execSubroutineReturn, State.pop_nil (withVariant s v) hst]
    rfl
  · rw [e, execSubroutineReturn, State.pop_cons (withVariant s v) w ws hst]
    rfl

theorem execSubroutineCall_ignoresVariant (nnn : Addr12) : IgnoresVariant (execSubroutineCall nnn) := by
  intro s v
  rcases execSubroutineCall_cases nnn s with ⟨hlen, e⟩ | ⟨hlen, e⟩
  · rw [e, execSubroutineCall, State.push_room (withVariant s v) _ hlen]
    rfl
  · rw [e, execSubroutineCall, State.push_full (withVariant s v) _ hlen]
    rfl

theorem skipIf_ignoresVariant {c : State → Bool} (hc : ∀ s v, c (withVariant s v) = c s) :
    IgnoresVariant fun s => .next (s.skipIf (c s)) := by
  intro s v
  simp only [hc, skipIf_withVariant, mapNext]

theorem skipIfKey_ignoresVariant (x : Nibble) (pressed : Bool) : IgnoresVariant fun s => s.skipIfKey x pressed := by
  intro s v
  have hreg : (withVariant s v).reg x = s.reg x := rfl
  simp only [State.skipIfKey, hreg]
  cases keyOf (s.reg x) with
  | none => rfl
  | some k => exact congrArg Host.Outcome.next (skipIf_withVariant s v _)

theorem execGetKey_ignoresVariant (x : Nibble) : IgnoresVariant (execGetKey x) := by
  intro s v
  have hkeys : chooseKey (withVariant s v).draws (withVariant s v).pressedKeys = chooseKey s.draws s.pressedKeys := rfl
  simp only [execGetKey, hkeys]
  cases chooseKey s.draws s.pressedKeys <;> rfl

theorem execAddToIndex_ignoresVariant (x : Nibble) : IgnoresVariant (execAddToIndex x) := by
  intro s v
  by_cases hcross : indexCrossed s.i (addToWord s.i (s.reg x)) = true
  · simp only [execAddToIndex, if_pos hcross]
    exact congrArg Host.Outcome.next (if_pos hcross)
  · simp only [execAddToIndex, if_neg hcross]
    exact congrArg Host.Outcome.next (if_neg hcross)

theorem execDraw_ignoresVariant (x y n : Nibble) : IgnoresVariant (execDraw x y n) := by
  intro s v
  have hread : (withVariant s v).readBytes (withVariant s v).i.toNat n.toNat = s.readBytes s.i.toNat n.toNat :=
    readBytes_withVariant s v s.i.toNat n.toNat
  simp only [execDraw, hread]
  cases s.readBytes s.i.toNat n.toNat <;> rfl

theorem execDecimalConversion_ignoresVariant (x : Nibble) : IgnoresVariant (execDecimalConversion x) :=
  fun s v => settle_writeBytes_withVariant s v s.i.toNat (decimalDigits (s.reg x))

/-! ## Every meaning -/

/-- The five instructions of 00_scope.md R6. -/
def usesVariant : Instr → Bool
  | .aluShiftRight _ _ | .aluShiftLeft _ _ | .jumpOffset _ _ | .storeRegisters _ | .loadRegisters _ => true
  | _ => false

theorem exec_ignoresVariant {i : Instr} (hi : usesVariant i = false) : IgnoresVariant (exec i) := by
  cases i with
  | aluShiftRight | aluShiftLeft | jumpOffset | storeRegisters | loadRegisters => cases hi
  | subroutineReturn => exact execSubroutineReturn_ignoresVariant
  | subroutineCall nnn => exact execSubroutineCall_ignoresVariant nnn
  | skipEqualValue x nn => exact skipIf_ignoresVariant (c := fun s => s.reg x == nn) fun _ _ => rfl
  | skipNotEqualValue x nn => exact skipIf_ignoresVariant (c := fun s => s.reg x != nn) fun _ _ => rfl
  | skipEqualRegister x y => exact skipIf_ignoresVariant (c := fun s => s.reg x == s.reg y) fun _ _ => rfl
  | skipNotEqualRegister x y => exact skipIf_ignoresVariant (c := fun s => s.reg x != s.reg y) fun _ _ => rfl
  | skipIfKeyPressed x => exact skipIfKey_ignoresVariant x true
  | skipIfKeyReleased x => exact skipIfKey_ignoresVariant x false
  | getKey x => exact execGetKey_ignoresVariant x
  | addToIndex x => exact execAddToIndex_ignoresVariant x
  | draw x y n => exact execDraw_ignoresVariant x y n
  | decimalConversion x => exact execDecimalConversion_ignoresVariant x
  | _ =>
    -- The others answer one update, whose operands no variant enters.
    exact fun _ _ => rfl

/-- Settles O21: the other thirty meanings commute with the selection of a variant, and each of the five has a state on
which the variants differ. -/
theorem variantAltersFiveEncodings : Obligations.VariantAltersFiveEncodings := by
  unfold Obligations.VariantAltersFiveEncodings
  refine ⟨?others, ?shiftRight, ?shiftLeft, ?jumpOffset, ?store, ?load⟩
  case others =>
    intro i s t v h hshr hshl hjump hstore hload
    have hi : usesVariant i = false := by
      cases i with
      | aluShiftRight x y => exact absurd rfl (hshr x y)
      | aluShiftLeft x y => exact absurd rfl (hshl x y)
      | jumpOffset x nnn => exact absurd rfl (hjump x nnn)
      | storeRegisters x => exact absurd rfl (hstore x)
      | loadRegisters x => exact absurd rfl (hload x)
      | _ => rfl
    rw [exec_ignoresVariant hi, h, mapNext]
  -- The shifts: the source is V1 = 2 under CosmacVip and V0 = 0 under Chip48.
  case shiftRight => exact ⟨0, 1, State.reset.setReg 1 2, _, _, rfl, rfl, by decide⟩
  case shiftLeft => exact ⟨0, 1, State.reset.setReg 1 2, _, _, rfl, rfl, by decide⟩
  -- The top nibble of 0x210 is 2: V0 = 0x10 is added under CosmacVip, V2 = 0 under Chip48.
  case jumpOffset => exact ⟨0x210, State.reset.setReg 0 0x10, _, _, rfl, rfl, by decide⟩
  -- One register moved at 0x300: `I` ends at 0x301 under CosmacVip and at 0x300 under Chip48.
  case store => exact ⟨0, State.reset.setIndex 0x300, _, _, rfl, rfl, by decide, by decide, by decide⟩
  case load => exact ⟨0, State.reset.setIndex 0x300, _, _, rfl, rfl, by decide, by decide, by decide⟩

end Sys2Proof.Machine
end

section
/-! PROOFS. Which parts of the state an instruction may write (10_state.md), as one frame over every instruction, and the
life of the fault status. Every part but the registers is then settled by what the frame does not name. -/

namespace Sys2Proof.Machine

/-! ## The parts each instruction may write -/

/-- A block transfer moves `I` under CosmacVip alone (10_state.md R25). -/
def indexMoved : Variant → List Part
  | .cosmacVip => [.index]
  | .chip48 => []

@[simp] theorem mem_indexMoved {p : Part} {v : Variant} : p ∈ indexMoved v ↔ p = .index ∧ v = .cosmacVip := by
  cases v <;> simp [indexMoved]

/-- The parts that an instruction may write under a variant, its faults included. -/
def writes (v : Variant) : Instr → List Part
  | .system _ => []
  | .clearScreen => [.screen]
  | .subroutineReturn | .subroutineCall _ => [.stack, .pc, .fault]
  | .jump _ | .jumpOffset _ _ => [.pc]
  | .skipEqualValue _ _ | .skipNotEqualValue _ _ | .skipEqualRegister _ _ | .skipNotEqualRegister _ _ => [.pc]
  | .skipIfKeyPressed _ | .skipIfKeyReleased _ => [.pc, .fault]
  | .setRegister _ _ | .addValueRegister _ _ | .getDelayTimer _ => [.regs]
  | .aluSet _ _ | .aluOr _ _ | .aluAnd _ _ | .aluXor _ _ => [.regs]
  | .aluAdd _ _ | .aluSubtract _ _ | .aluSubtractInverse _ _ | .aluShiftRight _ _ | .aluShiftLeft _ _ => [.regs]
  | .random _ _ => [.regs, .draws]
  | .getKey _ => [.regs, .pc, .draws]
  | .setDelayTimer _ => [.delay]
  | .setSoundTimer _ => [.sound]
  | .setIndex _ | .fontCharacter _ => [.index]
  | .addToIndex _ => [.index, .regs]
  | .draw _ _ _ => [.screen, .regs, .fault]
  | .decimalConversion _ => [.memory, .fault]
  | .storeRegisters _ => [.memory, .fault] ++ indexMoved v
  | .loadRegisters _ => [.regs, .fault] ++ indexMoved v

/-! ## Frames of the remaining updates -/

section Frames
variable (s : State)

/-- Two updates in turn write what either writes. -/
theorem SameExcept.append {ps qs : List Part} {s t u : State} (h : SameExcept ps s t) (k : SameExcept qs t u) :
    SameExcept (ps ++ qs) s u :=
  (h.mono fun _ => List.mem_append_left qs).trans (k.mono fun _ => List.mem_append_right ps)

theorem sameExcept_setDelay (b : Byte) : SameExcept [.delay] s (s.setDelay b) := by
  intro p hp
  cases p <;> simp_all [Part.Same]

theorem sameExcept_setSound (b : Byte) : SameExcept [.sound] s (s.setSound b) := by
  intro p hp
  cases p <;> simp_all [Part.Same]

theorem sameExcept_countDraw : SameExcept [.draws] s s.countDraw := by
  intro p hp
  cases p <;> simp_all [Part.Same]

theorem sameExcept_setRegFlag (x : Nibble) (b : Byte) (c : Bool) : SameExcept [.regs] s (s.setRegFlag x b c) :=
  (sameExcept_setReg s x b).trans (sameExcept_setReg _ vf _)

theorem sameExcept_skipIf (c : Bool) : SameExcept [.pc] s (s.skipIf c) := by
  rw [State.skipIf_eq]
  exact sameExcept_setPc s _

theorem sameExcept_advanceIndex (x : Nibble) : SameExcept (indexMoved s.cfg.variant) s (s.advanceIndex x) := by
  unfold State.advanceIndex
  cases s.cfg.variant with
  | cosmacVip => exact sameExcept_setIndex s _
  | chip48 => exact SameExcept.refl _ s

end Frames

/-! ## The meanings that branch -/

section Meanings
variable {s t : State} {x : Nibble}

theorem execSubroutineReturn_frame (h : execSubroutineReturn s = .next t) : SameExcept [.stack, .pc, .fault] s t := by
  rcases execSubroutineReturn_cases s with ⟨-, e⟩ | ⟨w, ws, -, e⟩ <;> obtain rfl := Host.Outcome.next.inj (e.symm.trans h)
  · exact (sameExcept_fault s _).mono (by decide)
  · exact ((sameExcept_stack s ws).append (sameExcept_setPc _ w)).mono (by decide)

theorem execSubroutineCall_frame {nnn : Addr12} (h : execSubroutineCall nnn s = .next t) :
    SameExcept [.stack, .pc, .fault] s t := by
  rcases execSubroutineCall_cases nnn s with ⟨-, e⟩ | ⟨-, e⟩ <;> obtain rfl := Host.Outcome.next.inj (e.symm.trans h)
  · exact ((sameExcept_stack s _).append (sameExcept_setPc _ _)).mono (by decide)
  · exact (sameExcept_fault s _).mono (by decide)

theorem skipIfKey_frame {pressed : Bool} (h : s.skipIfKey x pressed = .next t) : SameExcept [.pc, .fault] s t := by
  rcases State.skipIfKey_cases s x pressed with ⟨k, -, e⟩ | ⟨-, e⟩ <;> obtain rfl := Host.Outcome.next.inj (e.symm.trans h)
  · exact (sameExcept_setPc s _).mono (by decide)
  · exact (sameExcept_fault s _).mono (by decide)

theorem execGetKey_frame (h : execGetKey x s = .next t) : SameExcept [.regs, .pc, .draws] s t := by
  rcases execGetKey_cases x s with ⟨-, e⟩ | ⟨k, -, e⟩ <;> obtain rfl := Host.Outcome.next.inj (e.symm.trans h)
  · exact (sameExcept_setPc s _).mono (by decide)
  · exact ((sameExcept_setReg s x _).append (sameExcept_countDraw _)).mono (by decide)

theorem execAddToIndex_frame (h : execAddToIndex x s = .next t) : SameExcept [.index, .regs] s t := by
  obtain rfl := Host.Outcome.next.inj h
  split
  · exact (sameExcept_setIndex s _).append (sameExcept_setReg _ vf _)
  · exact (sameExcept_setIndex s _).mono (by decide)

theorem execDraw_frame {y n : Nibble} (h : execDraw x y n s = .next t) : SameExcept [.screen, .regs, .fault] s t := by
  rcases execDraw_cases x y n s with ⟨-, e⟩ | ⟨-, e⟩ <;> obtain rfl := Host.Outcome.next.inj (e.symm.trans h)
  · exact ((sameExcept_screen s _).append (sameExcept_setReg _ vf _)).mono (by decide)
  · exact (sameExcept_fault s _).mono (by decide)

theorem execDecimalConversion_frame (h : execDecimalConversion x s = .next t) : SameExcept [.memory, .fault] s t := by
  rcases execDecimalConversion_cases x s with ⟨m, e, -⟩ | ⟨m, -, e, -⟩ <;>
    obtain rfl := Host.Outcome.next.inj (e.symm.trans h)
  · exact (sameExcept_mem s m).mono (by decide)
  · exact (sameExcept_mem s m).append (sameExcept_fault _ _)

theorem execStoreRegisters_frame (h : execStoreRegisters x s = .next t) :
    SameExcept ([.memory, .fault] ++ indexMoved s.cfg.variant) s t := by
  rcases execStoreRegisters_cases x s with ⟨m, e, -⟩ | ⟨m, -, e, -⟩ <;>
    obtain rfl := Host.Outcome.next.inj (e.symm.trans h)
  · exact ((sameExcept_mem s m).mono (by decide)).append (sameExcept_advanceIndex { s with mem := m } x)
  · exact ((sameExcept_mem s m).append (sameExcept_fault _ _)).mono fun _ => List.mem_append_left _

theorem execLoadRegisters_frame (h : execLoadRegisters x s = .next t) :
    SameExcept ([.regs, .fault] ++ indexMoved s.cfg.variant) s t := by
  rcases execLoadRegisters_cases x s with ⟨v, e, -⟩ | ⟨v, -, e, -⟩ <;>
    obtain rfl := Host.Outcome.next.inj (e.symm.trans h)
  · exact ((sameExcept_regs s v).mono (by decide)).append (sameExcept_advanceIndex { s with v := v } x)
  · exact ((sameExcept_regs s v).append (sameExcept_fault _ _)).mono fun _ => List.mem_append_left _

end Meanings

/-! ## Every meaning -/

/-- An instruction changes no part that `writes` does not name. -/
theorem exec_frame {i : Instr} {s t : State} (h : exec i s = .next t) : SameExcept (writes s.cfg.variant i) s t := by
  cases i with
  | subroutineReturn => exact execSubroutineReturn_frame h
  | subroutineCall nnn => exact execSubroutineCall_frame h
  | skipIfKeyPressed x | skipIfKeyReleased x => exact skipIfKey_frame h
  | getKey x => exact execGetKey_frame h
  | addToIndex x => exact execAddToIndex_frame h
  | draw x y n => exact execDraw_frame h
  | decimalConversion x => exact execDecimalConversion_frame h
  | storeRegisters x => exact execStoreRegisters_frame h
  | loadRegisters x => exact execLoadRegisters_frame h
  | random x nn =>
    obtain rfl := Host.Outcome.next.inj h
    exact (sameExcept_setReg s x _).append (sameExcept_countDraw _)
  | system =>
    obtain rfl := Host.Outcome.next.inj h
    exact SameExcept.refl _ s
  | clearScreen =>
    obtain rfl := Host.Outcome.next.inj h
    exact sameExcept_screen s []
  | jump | jumpOffset =>
    obtain rfl := Host.Outcome.next.inj h
    exact sameExcept_setPc s _
  | skipEqualValue | skipNotEqualValue | skipEqualRegister | skipNotEqualRegister =>
    obtain rfl := Host.Outcome.next.inj h
    exact sameExcept_skipIf s _
  | setRegister | addValueRegister | aluSet | aluOr | aluAnd | aluXor | getDelayTimer =>
    obtain rfl := Host.Outcome.next.inj h
    exact sameExcept_setReg s _ _
  | aluAdd | aluSubtract | aluSubtractInverse | aluShiftRight | aluShiftLeft =>
    obtain rfl := Host.Outcome.next.inj h
    exact sameExcept_setRegFlag s _ _ _
  | setDelayTimer =>
    obtain rfl := Host.Outcome.next.inj h
    exact sameExcept_setDelay s _
  | setSoundTimer =>
    obtain rfl := Host.Outcome.next.inj h
    exact sameExcept_setSound s _
  | setIndex | fontCharacter =>
    obtain rfl := Host.Outcome.next.inj h
    exact sameExcept_setIndex s _

/-- A part that an instruction changed is one that it may write. -/
theorem exec_changed {i : Instr} {s t : State} {p : Part} (h : exec i s = .next t) (hp : ¬p.Same s t) :
    p ∈ writes s.cfg.variant i :=
  by_contra fun hmem => hp (exec_frame h p hmem)

/-! ## Registers (10_state.md R20, R22) -/

section Registers
variable {s t : State} {x r : Nibble}

theorem setReg_reg_of_not_mem (s : State) (b : Byte) (hr : r ∉ [x]) : (s.setReg x b).reg r = s.reg r := by
  rw [State.reg_setReg, if_neg (mt List.mem_singleton.mpr hr)]

theorem setFlag_reg_of_ne (s : State) (c : Bool) (hr : r ≠ vf) : (s.setFlag c).reg r = s.reg r :=
  setReg_reg_of_not_mem s _ (mt List.mem_singleton.mp hr)

theorem setRegFlag_reg_of_ne (s : State) (b : Byte) (c : Bool) (hx : r ∉ [x]) (hvf : r ≠ vf) :
    (s.setRegFlag x b c).reg r = s.reg r :=
  (setFlag_reg_of_ne _ c hvf).trans (setReg_reg_of_not_mem s b hx)

theorem mem_registersUpTo : r ∈ registersUpTo x ↔ r.toNat ≤ x.toNat := by
  simp only [registersUpTo, List.mem_map, List.mem_range, Nat.lt_succ_iff]
  constructor
  · rintro ⟨k, hk, rfl⟩
    rw [BitVec.toNat_ofNat]
    exact (Nat.mod_le k _).trans hk
  · exact fun hr => ⟨r.toNat, hr, by simp⟩

theorem execGetKey_reg (h : execGetKey x s = .next t) (hr : r ∉ [x]) : t.reg r = s.reg r := by
  rcases execGetKey_cases x s with ⟨-, e⟩ | ⟨k, -, e⟩ <;> obtain rfl := Host.Outcome.next.inj (e.symm.trans h)
  · rfl
  · exact setReg_reg_of_not_mem s _ hr

theorem execAddToIndex_reg (h : execAddToIndex x s = .next t) (hr : r ≠ vf) : t.reg r = s.reg r := by
  obtain rfl := Host.Outcome.next.inj h
  split
  · exact setFlag_reg_of_ne (s.setIndex _) true hr
  · rfl

theorem execDraw_reg {y n : Nibble} (h : execDraw x y n s = .next t) (hr : r ≠ vf) : t.reg r = s.reg r := by
  rcases execDraw_cases x y n s with ⟨-, e⟩ | ⟨-, e⟩ <;> obtain rfl := Host.Outcome.next.inj (e.symm.trans h)
  · exact setFlag_reg_of_ne { s with screen := _ } _ hr
  · rfl

theorem execLoadRegisters_reg (h : execLoadRegisters x s = .next t) (hr : r ∉ registersUpTo x) : t.reg r = s.reg r := by
  have hlt : x.toNat < r.toNat := Nat.not_le.mp (mt mem_registersUpTo.mpr hr)
  rcases execLoadRegisters_cases x s with ⟨v, e, hreg⟩ | ⟨v, -, e, hreg⟩ <;>
    obtain rfl := Host.Outcome.next.inj (e.symm.trans h)
  · rw [State.advanceIndex_eq, State.setIndex_reg, hreg r hlt]
  · exact (hreg r).trans (if_neg fun hin => Nat.not_le.mpr hlt hin.1)

/-- A register that an instruction neither names as a destination nor writes as the flag keeps its value. -/
theorem exec_keeps_reg {i : Instr} (h : exec i s = .next t) (hdest : r ∉ destinations i)
    (hflag : ¬(r = vf ∧ writesFlag i)) : t.reg r = s.reg r := by
  cases i with
  | setRegister | addValueRegister | aluSet | aluOr | aluAnd | aluXor | getDelayTimer | random =>
    obtain rfl := Host.Outcome.next.inj h
    exact setReg_reg_of_not_mem s _ hdest
  | aluAdd | aluSubtract | aluSubtractInverse | aluShiftRight | aluShiftLeft =>
    obtain rfl := Host.Outcome.next.inj h
    exact setRegFlag_reg_of_ne s _ _ hdest fun hvf => hflag ⟨hvf, trivial⟩
  | getKey => exact execGetKey_reg h hdest
  | addToIndex => exact execAddToIndex_reg h fun hvf => hflag ⟨hvf, trivial⟩
  | draw => exact execDraw_reg h fun hvf => hflag ⟨hvf, trivial⟩
  | loadRegisters => exact execLoadRegisters_reg h hdest
  | _ => exact exec_frame h .regs (by simp [writes]) r

end Registers

/-! ## The program counter (10_state.md R23) -/

section ProgramCounter
variable {s t : State} {x : Nibble}

theorem skipIf_pc (s : State) (c : Bool) : (s.skipIf c).pc = s.pc ∨ (s.skipIf c).pc = s.pc + 2 := by
  cases c with
  | false => exact .inl rfl
  | true => exact .inr rfl

theorem skipIfKey_pc {pressed : Bool} (h : s.skipIfKey x pressed = .next t) : t.pc = s.pc ∨ t.pc = s.pc + 2 := by
  rcases State.skipIfKey_cases s x pressed with ⟨k, -, e⟩ | ⟨-, e⟩ <;> obtain rfl := Host.Outcome.next.inj (e.symm.trans h)
  · rw [← State.skipIf_eq]
    exact skipIf_pc s _
  · exact .inl rfl

theorem execGetKey_pc (h : execGetKey x s = .next t) : t.pc = s.pc ∨ t.pc = s.pc - 2 := by
  rcases execGetKey_cases x s with ⟨-, e⟩ | ⟨k, -, e⟩ <;> obtain rfl := Host.Outcome.next.inj (e.symm.trans h)
  · exact .inr rfl
  · exact .inl rfl

end ProgramCounter

/-! ## The parts that no instruction writes, and the step -/

theorem exec_keeps_keys_and_cfg {i : Instr} {s t : State} (h : exec i s = .next t) :
    (∀ k, t.key k = s.key k) ∧ t.cfg = s.cfg :=
  have hmem (p : Part) (hp : p = .keys ∨ p = .config) : p ∉ writes s.cfg.variant i := by
    rcases hp with rfl | rfl <;> cases i <;> simp [writes]
  ⟨exec_frame h .keys (hmem _ (.inl rfl)), exec_frame h .config (hmem _ (.inr rfl))⟩

/-- The fetch advance, a fetch fault and an unsupported word touch neither the keypad nor the configuration. -/
theorem step_keeps_keys_and_cfg {s t : State} (h : step s = .next t) : (∀ k, t.key k = s.key k) ∧ t.cfg = s.cfg := by
  rcases step_cases h with ⟨-, rfl⟩ | ⟨-, -, rfl⟩ | ⟨-, -, hexec⟩
  · exact ⟨fun _ => rfl, rfl⟩
  · exact ⟨fun _ => rfl, rfl⟩
  · rcases execWord_cases hexec with ⟨i, -, hi⟩ | ⟨w, rfl⟩
    · have hkept := exec_keeps_keys_and_cfg hi
      exact hkept
    · exact ⟨fun _ => rfl, rfl⟩

theorem step_of_fault {s : State} {f : Fault} (hf : s.faultStatus = some f) : step s = .next s := by
  simp only [step, hf]

/-! ## The obligations -/

/-- Settles O12: the step lemma that the runs of events rest on. -/
theorem stepKeepsInvariant : Obligations.StepKeepsInvariant :=
  fun _ _ hinv h => step_keeps_inv hinv h

/-- Settles O14: `writes` names neither part for any instruction. -/
theorem stepKeepsKeysAndConfiguration : Obligations.StepKeepsKeysAndConfiguration :=
  fun _ _ h => step_keeps_keys_and_cfg h

/-- Settles O16: `writes` names the stack for the return and the call alone. -/
theorem stackWriters : Obligations.StackWriters := by
  intro i s t h hne
  have hmem : .stack ∈ writes s.cfg.variant i := exec_changed h hne
  cases i with
  | subroutineReturn => exact .inl rfl
  | subroutineCall nnn => exact .inr ⟨nnn, rfl⟩
  | _ => simp [writes] at hmem

/-- Settles O17: `writes` names each timer for one instruction alone. -/
theorem timerWriters : Obligations.TimerWriters := by
  refine fun i s t h => ⟨fun hne => ?delay, fun hne => ?sound⟩
  case delay =>
    have hmem : .delay ∈ writes s.cfg.variant i := exec_changed h hne
    cases i with
    | setDelayTimer x => exact ⟨x, rfl⟩
    | _ => simp [writes] at hmem
  case sound =>
    have hmem : .sound ∈ writes s.cfg.variant i := exec_changed h hne
    cases i with
    | setSoundTimer x => exact ⟨x, rfl⟩
    | _ => simp [writes] at hmem

/-- Settles O18: for the block transfers `writes` names `I` under CosmacVip alone. -/
theorem indexWriters : Obligations.IndexWriters := by
  intro i s t h hne
  have hmem : .index ∈ writes s.cfg.variant i := exec_changed h hne
  cases i with
  | setIndex nnn => exact .inl ⟨nnn, rfl⟩
  | addToIndex x => exact .inr (.inl ⟨x, rfl⟩)
  | fontCharacter x => exact .inr (.inr (.inl ⟨x, rfl⟩))
  | storeRegisters x =>
    have hv : s.cfg.variant = .cosmacVip := by simpa [writes] using hmem
    exact .inr (.inr (.inr ⟨hv, .inl ⟨x, rfl⟩⟩))
  | loadRegisters x =>
    have hv : s.cfg.variant = .cosmacVip := by simpa [writes] using hmem
    exact .inr (.inr (.inr ⟨hv, .inr ⟨x, rfl⟩⟩))
  | _ => simp [writes] at hmem

/-- Settles O19, by what `exec_keeps_reg` leaves. -/
theorem registerAndFlagWriters : Obligations.RegisterAndFlagWriters := by
  intro i s t r h hne
  by_contra hnot
  obtain ⟨hdest, hflag⟩ := not_or.mp hnot
  exact hne (exec_keeps_reg h hdest hflag)

/-- Settles O20: `writes` says which instructions may change `pc`, and the skips and `GetKey` have their two amounts. -/
theorem programCounterWriters : Obligations.ProgramCounterWriters := by
  intro i s t h hne
  have hmem : .pc ∈ writes s.cfg.variant i := exec_changed h hne
  cases i with
  | subroutineReturn | jump | subroutineCall | jumpOffset => simp
  | skipEqualValue | skipNotEqualValue | skipEqualRegister | skipNotEqualRegister =>
    obtain rfl := Host.Outcome.next.inj h
    have hpc := (skipIf_pc s _).resolve_left hne
    simp [hpc]
  | skipIfKeyPressed | skipIfKeyReleased =>
    have hpc : t.pc = s.pc + 2 := (skipIfKey_pc h).resolve_left hne
    simp [hpc]
  | getKey =>
    have hpc : t.pc = s.pc - 2 := (execGetKey_pc h).resolve_left hne
    simp [hpc]
  | _ => simp [writes] at hmem

/-- Settles O9: a step answers the faulted state itself, the other host events write a timer or a key, and `Reset` builds
a state without a fault. -/
theorem faultIsStickyUntilReset : Obligations.FaultIsStickyUntilReset := by
  refine ⟨fun s f hf => step_of_fault hf, ?sticky, ?cleared⟩
  case sticky =>
    intro e s t f hf h hne
    cases e with
    | reset c rom => exact absurd rfl (hne c rom)
    | step =>
      obtain rfl := Host.Outcome.next.inj ((step_of_fault hf).symm.trans h)
      exact hf
    | tick | keyDown | keyUp =>
      obtain rfl := Host.Outcome.next.inj h
      exact hf
  case cleared =>
    intro c rom s t h
    obtain ⟨-, rfl⟩ := deliver_reset_next h
    rfl

end Sys2Proof.Machine
end

section
/-! PROOFS. Memory (20_memory.md): the bounds-checked bytes, the instructions that write memory and the screen, and that
a block store is seen by the next fetch. -/

namespace Sys2Proof.Machine

/-! ## Bytes of memory (20_memory.md R52, R53) -/

theorem sameExcept_poke (s : State) (a : Nat) (w : Byte) : SameExcept [.memory] s (s.poke a w) :=
  sameExcept_mem s _

/-- A write moves no bound: every other address reads as before, in range or out of it. -/
theorem State.readByte_poke_of_ne (s : State) {a b : Nat} (w : Byte) (h : b ≠ a) :
    (s.poke a w).readByte b = s.readByte b := by
  simp only [State.readByte, State.peek_poke, if_neg h]

/-- A byte in range reads back as written. -/
theorem State.readByte_poke_self (s : State) {a : Nat} (w : Byte) (h : a < memSize) :
    (s.poke a w).readByte a = .ok w := by
  rw [State.readByte_in _ h, State.peek_poke, if_pos rfl]

/-! ## A block store that fits in memory (43_index_memory.md R144) -/

section BlockStore
variable {s : State} {x : Nibble}

@[simp] theorem State.advanceIndex_pc (s : State) (x : Nibble) : (s.advanceIndex x).pc = s.pc := by
  rw [State.advanceIndex_eq, State.setIndex_pc]

@[simp] theorem State.advanceIndex_peek (s : State) (x : Nibble) (a : Nat) : (s.advanceIndex x).peek a = s.peek a := by
  rw [State.advanceIndex_eq, State.setIndex_peek]

/-- A block that fits is written whole, and `I` moves by the variant. -/
theorem execStoreRegisters_fits (h : s.i.toNat + x.toNat < memSize) :
    ∃ m, execStoreRegisters x s = .next (({ s with mem := m } : State).advanceIndex x) ∧
      ∀ b, ({ s with mem := m } : State).peek b = if s.i.toNat ≤ b ∧ b ≤ s.i.toNat + x.toNat
        then ((registersUpTo x).map s.reg).getD (b - s.i.toNat) 0 else s.peek b := by
  have hlen : ((registersUpTo x).map s.reg).length = x.toNat + 1 := by simp [registersUpTo]
  obtain ⟨t, ht, hframe, -, hpeek⟩ :=
    State.writeBytes_ok s s.i.toNat ((registersUpTo x).map s.reg) (.inr (by rw [hlen]; exact h))
  refine ⟨t.mem, ?_, fun b => ?_⟩
  · rw [execStoreRegisters, ht, Except.map, settle_ok, ← hframe]
  · rw [← hframe, hpeek, hlen]
    exact if_congr (by omega) rfl rfl

/-- After a store of V0 to Vx that fits, the byte at `I + r` is `V[r]`; `pc` stands. -/
theorem execStoreRegisters_stored (h : s.i.toNat + x.toNat < memSize) :
    ∃ t, execStoreRegisters x s = .next t ∧ t.pc = s.pc ∧
      ∀ r : Nibble, r.toNat ≤ x.toNat → t.peek (s.i.toNat + r.toNat) = s.reg r := by
  obtain ⟨m, hexec, hpeek⟩ := execStoreRegisters_fits h
  refine ⟨_, hexec, State.advanceIndex_pc _ x, fun r hr => ?_⟩
  rw [State.advanceIndex_peek, hpeek, if_pos (by omega), Nat.add_sub_cancel_left, State.blockByte s x r hr]

end BlockStore

/-! ## The obligations -/

/-- Settles O15: `writes` names memory for the conversion and the store alone, the screen for the clear and the draw
alone. -/
theorem memoryAndScreenWriters : Obligations.MemoryAndScreenWriters := by
  refine fun i s t h => ⟨fun a hne => ?memory, fun px py hne => ?screen⟩
  case memory =>
    have hmem : .memory ∈ writes s.cfg.variant i := exec_changed h fun hsame => hne (hsame a)
    cases i with
    | decimalConversion x => exact .inl ⟨x, rfl⟩
    | storeRegisters x => exact .inr ⟨x, rfl⟩
    | _ => simp [writes] at hmem
  case screen =>
    have hmem : .screen ∈ writes s.cfg.variant i := exec_changed h fun hsame => hne (hsame px py)
    cases i with
    | clearScreen => exact .inl rfl
    | draw x y n => exact .inr ⟨x, y, n, rfl⟩
    | _ => simp [writes] at hmem

/-- Settles O44: both bytes at `pc` lie in the block, so the fetch reads the two registers stored there. -/
theorem storeIsSeenByNextFetch : Obligations.StoreIsSeenByNextFetch := by
  intro x r q s hfits hqr hqx hpc
  obtain ⟨t, hexec, htpc, hstored⟩ := execStoreRegisters_stored (Nat.lt_succ_of_le hfits)
  have hhigh : t.peek s.pc.toNat = s.reg r := by
    rw [hpc]
    exact hstored r (by omega)
  have hlow : t.peek (s.pc.toNat + 1) = s.reg q := by
    rw [hpc, Nat.add_assoc, ← hqr]
    exact hstored q hqx
  have hrange : s.pc.toNat + 1 < memSize := Nat.lt_succ_of_le (by omega)
  refine ⟨t, hexec, ?_⟩
  rw [State.fetch_eq, htpc, if_pos hrange, State.wordAt, hhigh, hlow]

/-- Settles O43: address 4095 is the last below `memSize`. -/
theorem memoryIsBoundsCheckedBytes : Obligations.MemoryIsBoundsCheckedBytes := by
  refine fun s a w => ⟨fun ha => ?inside, fun ha => ?outside⟩
  case inside =>
    have hin : a < memSize := Nat.lt_succ_of_le ha
    exact ⟨s.readByte_in hin, s.poke a w, s.writeByte_in w hin, s.readByte_poke_self w hin,
      fun b hb => s.readByte_poke_of_ne w hb, sameExcept_poke s a w⟩
  case outside => exact ⟨s.readByte_out ha, s.writeByte_out w ha⟩

end Sys2Proof.Machine
end

section
/-! PROOFS. Encoding and decoding (30_encoding.md R72 to R81): decode of encode, all that the decoder can answer for a word,
and the rows of the opcode table that a word matches. -/

namespace Sys2Proof

open Machine

/-! ## Well-formed terms (30_encoding.md R80, 90_conflicts.md C7) -/

theorem system_wf_iff (nnn : Addr12) : (Instr.system nnn).wf = true ↔ nnn ≠ 0x0E0 ∧ nnn ≠ 0x0EE := by
  simp [Instr.wf]

theorem jumpOffset_wf_iff (x : Nibble) (nnn : Addr12) : (Instr.jumpOffset x nnn).wf = true ↔ x = topNibble nnn := by
  simp [Instr.wf]

/-! ## Decode of encode -/

theorem wordNNN_inj (f : Nibble) (k m : Addr12) : wordNNN f k = wordNNN f m ↔ k = m :=
  ⟨fun h => by simpa using congrArg fieldNNN h, congrArg (wordNNN f)⟩

theorem decodeFamily0_wordNNN {nnn : Addr12} (hcls : nnn ≠ 0x0E0) (hret : nnn ≠ 0x0EE) :
    decodeFamily0 (wordNNN 0x0 nnn) = .instr (.system nnn) := by
  have hne_cls : wordNNN 0x0 nnn ≠ 0x00E0 := (wordNNN_inj 0x0 nnn 0x0E0).not.mpr hcls
  have hne_ret : wordNNN 0x0 nnn ≠ 0x00EE := (wordNNN_inj 0x0 nnn 0x0EE).not.mpr hret
  rw [decodeFamily0, if_neg hne_cls, if_neg hne_ret, fieldNNN_wordNNN]

/-- The fields of the word are the operands; only `System` and `JumpOffset` need well-formedness. -/
theorem decode_encode {i : Instr} (h : i.wf = true) : decode (encode i) = .instr i := by
  cases i with
  | clearScreen | subroutineReturn => rfl
  | system nnn =>
    obtain ⟨hcls, hret⟩ := (system_wf_iff nnn).mp h
    simpa [decode, encode] using decodeFamily0_wordNNN hcls hret
  | jumpOffset x nnn => simp [decode, encode, (jumpOffset_wf_iff x nnn).mp h]
  | jump | subroutineCall | setIndex => simp [decode, encode]
  | skipEqualValue | skipNotEqualValue | setRegister | addValueRegister | random => simp [decode, encode]
  | skipEqualRegister | skipNotEqualRegister | draw => simp [decode, encode]
  | aluSet | aluOr | aluAnd | aluXor | aluAdd | aluSubtract | aluShiftRight | aluSubtractInverse | aluShiftLeft =>
    simp [decode, encode, decodeFamily8]
  | skipIfKeyPressed | skipIfKeyReleased => simp [decode, encode, decodeFamilyE]
  | getDelayTimer | getKey | setDelayTimer | setSoundTimer | addToIndex | fontCharacter | decimalConversion
  | storeRegisters | loadRegisters => simp [decode, encode, decodeFamilyF]

/-! ## What the decoder answers -/

/-- What an answer of the decoder has to say of the word `op`: an instruction is well formed and encodes to `op`, a fallback
carries `op`, and which of the two it is follows R79's table (30_encoding.md R78, R79, R81). -/
def Decoded.Describes (op : Word) : Decoded → Prop
  | .instr i => encode i = op ∧ i.wf = true ∧ inUnsupportedSpace op = false
  | .unsupported w => w = op ∧ inUnsupportedSpace op = true
  | .arithmeticUnknown _ _ w => w = op ∧ inUnsupportedSpace op = true

/-- The families in which some words are unsupported (30_encoding.md R79). -/
def partialFamilies : List Nibble := [0x5, 0x8, 0x9, 0xE, 0xF]

theorem eq_ofNat_of_toNat_eq {w k : Nat} {b : BitVec w} (h : b.toNat = k) : b = BitVec.ofNat w k := by
  rw [← h, BitVec.ofNat_toNat, BitVec.setWidth_eq]

theorem topNibble_fieldNNN (op : Word) : topNibble (fieldNNN op) = fieldX op := by
  rw [← fieldX_wordNNN (fieldF op) (fieldNNN op), wordNNN_fields]

section Families
variable {op : Word} {f n : Nibble} {nn : Byte}

theorem wordNNN_of_family (hf : fieldF op = f) : wordNNN f (fieldNNN op) = op := hf ▸ wordNNN_fields op

theorem wordXNN_of_fields (hf : fieldF op = f) (hnn : fieldNN op = nn) : wordXNN f (fieldX op) nn = op :=
  hf ▸ hnn ▸ wordXNN_fields op

theorem wordXYN_of_fields (hf : fieldF op = f) (hn : fieldN op = n) : wordXYN f (fieldX op) (fieldY op) n = op :=
  hf ▸ hn ▸ wordXYN_fields op

theorem inUnsupportedSpace_of_full_family (hf : fieldF op = f) (h : f ∉ partialFamilies) :
    inUnsupportedSpace op = false := by
  simp_all [inUnsupportedSpace, partialFamilies]

theorem decodeFamily0_describes (hf : fieldF op = 0x0) : (decodeFamily0 op).Describes op := by
  have hspace : inUnsupportedSpace op = false := inUnsupportedSpace_of_full_family hf (by decide)
  have henc : wordNNN 0x0 (fieldNNN op) = op := wordNNN_of_family hf
  unfold decodeFamily0
  split_ifs with hcls hret
  · exact ⟨hcls.symm, rfl, hspace⟩
  · exact ⟨hret.symm, rfl, hspace⟩
  · have hne_cls : fieldNNN op ≠ 0x0E0 := fun h => hcls (henc.symm.trans (congrArg (wordNNN 0x0) h))
    have hne_ret : fieldNNN op ≠ 0x0EE := fun h => hret (henc.symm.trans (congrArg (wordNNN 0x0) h))
    exact ⟨henc, (system_wf_iff _).mpr ⟨hne_cls, hne_ret⟩, hspace⟩

/-- Families 5 and 9, whose one instruction has the low nibble 0 (the spec's decision D4). -/
theorem describes_if_fieldN_zero {i : Instr} (hspace : inUnsupportedSpace op = (fieldN op != 0))
    (henc : fieldN op = 0 → encode i = op) (hwf : i.wf = true) :
    (if fieldN op = 0 then Decoded.instr i else .unsupported op).Describes op := by
  split_ifs with hn
  · exact ⟨henc hn, hwf, by rw [hspace, hn]; rfl⟩
  · exact ⟨rfl, hspace.trans (bne_iff_ne.mpr hn)⟩

theorem decodeFamily8_describes (hf : fieldF op = 0x8) : (decodeFamily8 op).Describes op := by
  have hspace : inUnsupportedSpace op = decide ((fieldN op).toNat ∈ [0x8, 0x9, 0xA, 0xB, 0xC, 0xD, 0xF]) := by
    simp [inUnsupportedSpace, hf, ← BitVec.toNat_inj]
  unfold decodeFamily8
  split
  case h_10 =>
    -- The low nibble names no operator, and is below 16.
    have hlt := (fieldN op).isLt
    refine ⟨rfl, ?_⟩
    simp only [hspace, decide_eq_true_eq, List.mem_cons, List.not_mem_nil, or_false, imp_false] at *
    omega
  all_goals
    next h => exact ⟨wordXYN_of_fields hf (eq_ofNat_of_toNat_eq h), rfl, by rw [hspace, h]; rfl⟩

theorem decodeFamilyE_describes (hf : fieldF op = 0xE) : (decodeFamilyE op).Describes op := by
  have hspace : inUnsupportedSpace op = decide (fieldNN op ≠ 0x9E ∧ fieldNN op ≠ 0xA1) := by
    simp [inUnsupportedSpace, hf]
  unfold decodeFamilyE
  split_ifs with hpressed hreleased
  · exact ⟨wordXNN_of_fields hf hpressed, rfl, by rw [hspace, hpressed]; rfl⟩
  · exact ⟨wordXNN_of_fields hf hreleased, rfl, by rw [hspace, hreleased]; rfl⟩
  · exact ⟨rfl, hspace.trans (decide_eq_true ⟨hpressed, hreleased⟩)⟩

theorem decodeFamilyF_describes (hf : fieldF op = 0xF) : (decodeFamilyF op).Describes op := by
  have hspace : inUnsupportedSpace op =
      decide ((fieldNN op).toNat ∉ [0x07, 0x0A, 0x15, 0x18, 0x1E, 0x29, 0x33, 0x55, 0x65]) := by
    simp [inUnsupportedSpace, hf, ← BitVec.toNat_inj]
  unfold decodeFamilyF
  split
  case h_10 =>
    refine ⟨rfl, ?_⟩
    simp only [hspace, decide_eq_true_eq, List.mem_cons, List.not_mem_nil, or_false, imp_false] at *
    omega
  all_goals
    next h => exact ⟨wordXNN_of_fields hf (eq_ofNat_of_toNat_eq h), rfl, by rw [hspace, h]; rfl⟩

end Families

/-- All that the decoder can answer. Arm `h_k` of the decoder is family `k - 1`. -/
theorem decode_describes (op : Word) : (decode op).Describes op := by
  have hfull {k : Nat} (h : (fieldF op).toNat = k) (hk : BitVec.ofNat 4 k ∉ partialFamilies) :
      inUnsupportedSpace op = false := inUnsupportedSpace_of_full_family (eq_ofNat_of_toNat_eq h) hk
  unfold decode
  split
  case h_1 h => exact decodeFamily0_describes (eq_ofNat_of_toNat_eq h)
  case h_2 h | h_3 h | h_11 h => exact ⟨wordNNN_of_family (eq_ofNat_of_toNat_eq h), rfl, hfull h (by decide)⟩
  case h_12 h =>
    have hwf := (jumpOffset_wf_iff _ _).mpr (topNibble_fieldNNN op).symm
    exact ⟨wordNNN_of_family (eq_ofNat_of_toNat_eq h), hwf, hfull h (by decide)⟩
  case h_4 h | h_5 h | h_7 h | h_8 h | h_13 h =>
    exact ⟨wordXNN_of_fields (eq_ofNat_of_toNat_eq h) rfl, rfl, hfull h (by decide)⟩
  case h_14 h => exact ⟨wordXYN_of_fields (eq_ofNat_of_toNat_eq h) rfl, rfl, hfull h (by decide)⟩
  case h_6 h | h_10 h =>
    have hf := eq_ofNat_of_toNat_eq h
    exact describes_if_fieldN_zero (by simp [inUnsupportedSpace, hf]) (wordXYN_of_fields hf) rfl
  case h_9 h => exact decodeFamily8_describes (eq_ofNat_of_toNat_eq h)
  case h_15 h => exact decodeFamilyE_describes (eq_ofNat_of_toNat_eq h)
  case h_16 =>
    have hlt := (fieldF op).isLt
    have h : (fieldF op).toNat = 0xF := by
      simp only [imp_false] at *
      omega
    exact decodeFamilyF_describes (eq_ofNat_of_toNat_eq h)

/-- The instruction that a word decodes to encodes to the word, is well formed, and the word is not in R79's table. -/
theorem decode_instr {op : Word} {i : Instr} (h : decode op = .instr i) :
    encode i = op ∧ i.wf = true ∧ inUnsupportedSpace op = false := by
  have hdesc := decode_describes op
  rw [h] at hdesc
  exact hdesc

/-- A word outside R79's table decodes to an instruction: both fallbacks would place it in the table. -/
theorem exists_instr_of_not_unsupported {op : Word} (h : inUnsupportedSpace op = false) : ∃ i, decode op = .instr i := by
  have hdesc := decode_describes op
  cases hd : decode op with
  | instr i => exact ⟨i, rfl⟩
  | unsupported w | arithmeticUnknown x y w =>
    rw [hd] at hdesc
    obtain ⟨-, hin⟩ := hdesc
    simp [h] at hin

/-! ## The rows of the opcode table (30_encoding.md R76) -/

/-- The family nibble of an instruction's row. -/
def rowFamily (i : Instr) : Nibble := fieldF (tableRow i).2

/-- The largest mask among the rows of a family. -/
def familyMask (f : Nibble) : Word :=
  if f = 0x0 then 0xFFFF
  else if f = 0x5 ∨ f = 0x8 ∨ f = 0x9 then 0xF00F
  else if f = 0xE ∨ f = 0xF then 0xF0FF
  else 0xF000

open Laws.TableMask in
theorem encode_matches_row : ∀ i : Instr, encode i &&& (tableRow i).1 = (tableRow i).2
  | .system nnn => system nnn
  | .clearScreen => clearScreen
  | .subroutineReturn => subroutineReturn
  | .jump nnn => jump nnn
  | .subroutineCall nnn => subroutineCall nnn
  | .skipEqualValue x nn => skipEqualValue x nn
  | .skipNotEqualValue x nn => skipNotEqualValue x nn
  | .skipEqualRegister x y => skipEqualRegister x y
  | .setRegister x nn => setRegister x nn
  | .addValueRegister x nn => addValueRegister x nn
  | .aluSet x y => aluSet x y
  | .aluOr x y => aluOr x y
  | .aluAnd x y => aluAnd x y
  | .aluXor x y => aluXor x y
  | .aluAdd x y => aluAdd x y
  | .aluSubtract x y => aluSubtract x y
  | .aluShiftRight x y => aluShiftRight x y
  | .aluSubtractInverse x y => aluSubtractInverse x y
  | .aluShiftLeft x y => aluShiftLeft x y
  | .skipNotEqualRegister x y => skipNotEqualRegister x y
  | .setIndex nnn => setIndex nnn
  | .jumpOffset x nnn => jumpOffset x nnn
  | .random x nn => random x nn
  | .draw x y n => draw x y n
  | .skipIfKeyPressed x => skipIfKeyPressed x
  | .skipIfKeyReleased x => skipIfKeyReleased x
  | .getDelayTimer x => getDelayTimer x
  | .getKey x => getKey x
  | .setDelayTimer x => setDelayTimer x
  | .setSoundTimer x => setSoundTimer x
  | .addToIndex x => addToIndex x
  | .fontCharacter x => fontCharacter x
  | .decimalConversion x => decimalConversion x
  | .storeRegisters x => storeRegisters x
  | .loadRegisters x => loadRegisters x

theorem rowMask_eq_familyMask {i : Instr} (h : ∀ nnn, i ≠ .system nnn) : (tableRow i).1 = familyMask (rowFamily i) := by
  cases i with
  | system nnn => exact absurd rfl (h nnn)
  | _ =>
    simp only [tableRow, rowFamily]
    decide

theorem rowMask_inside_familyMask (i : Instr) : (tableRow i).1 &&& familyMask (rowFamily i) = (tableRow i).1 := by
  by_cases h : ∃ nnn, i = .system nnn
  · obtain ⟨nnn, rfl⟩ := h
    simp only [tableRow, rowFamily]
    decide
  · rw [rowMask_eq_familyMask (not_exists.mp h), BitVec.and_self]

theorem fieldF_rowMask (i : Instr) : fieldF (tableRow i).1 = 0xF := by
  cases i <;> simp only [tableRow] <;> decide

/-- Every mask holds the family nibble, so a word is of the family of each row that it matches. -/
theorem fieldF_of_matches {op : Word} {i : Instr} (h : op &&& (tableRow i).1 = (tableRow i).2) :
    fieldF op = rowFamily i := by
  have hand : fieldF (op &&& (tableRow i).1) = fieldF op &&& fieldF (tableRow i).1 := BitVec.extractLsb'_and
  rw [rowFamily, ← h, hand, fieldF_rowMask, and_ones]

theorem row_of_family_zero {i : Instr} (h : rowFamily i = 0x0) :
    (∃ nnn, i = .system nnn) ∨ i = .clearScreen ∨ i = .subroutineReturn := by
  cases i with
  | system nnn => exact .inl ⟨nnn, rfl⟩
  | clearScreen => exact .inr (.inl rfl)
  | subroutineReturn => exact .inr (.inr rfl)
  | _ =>
    simp only [rowFamily, tableRow] at h
    exact absurd h (by decide)

/-- A word that decodes to `System` matches the row of no other instruction: the two fixed words of family 0 decode to their
own instructions. -/
theorem system_of_matches {op : Word} {nnn : Addr12} {j : Instr} (hop : decode op = .instr (.system nnn))
    (hj : op &&& (tableRow j).1 = (tableRow j).2) : ∃ m, j = .system m := by
  have hfam : fieldF op = 0x0 := by
    obtain ⟨henc, -, -⟩ := decode_instr hop
    rw [← henc]
    exact fieldF_wordNNN 0x0 nnn
  have hfixed {w : Word} (h : op &&& 0xFFFF = w) : decode w = .instr (.system nnn) := by
    have hself : op &&& 0xFFFF = op := BitVec.and_allOnes
    rw [← h, hself, hop]
  rcases row_of_family_zero ((fieldF_of_matches hj).symm.trans hfam) with hsystem | rfl | rfl
  · exact hsystem
  · cases hfixed hj
  · cases hfixed hj

/-! ## The obligations -/

/-- Settles O2, by the formats of the encoder: the decoder reads back each field that the word was made of. -/
theorem decodeOfEncode : Obligations.DecodeOfEncode :=
  fun _ h => decode_encode h

/-- Settles O3, by what the decoder's answer says of its word. -/
theorem encodeOfDecode : Obligations.EncodeOfDecode := by
  intro op i h
  obtain ⟨henc, hwf, -⟩ := decode_instr h
  exact ⟨henc, hwf⟩

/-- Settles O5: the rows that a word matches are of one family, in which all rows but that of `System` have the largest
mask. -/
theorem decodeSelectsTableRow : Obligations.DecodeSelectsTableRow := by
  intro op i h
  have hi : op &&& (tableRow i).1 = (tableRow i).2 := (decode_instr h).1 ▸ encode_matches_row i
  refine ⟨hi, fun j hj => ?_⟩
  have hfam : rowFamily i = rowFamily j := (fieldF_of_matches hi).symm.trans (fieldF_of_matches hj)
  by_cases hsystem : ∃ nnn, i = .system nnn
  · obtain ⟨nnn, rfl⟩ := hsystem
    obtain ⟨m, rfl⟩ := system_of_matches h hj
    exact BitVec.and_self
  · rw [rowMask_eq_familyMask (not_exists.mp hsystem), hfam]
    exact rowMask_inside_familyMask j

end Sys2Proof
end

section
/-! PROOFS. The step cycle (30_encoding.md R70, R78): the fetch, the execution of the fetched word, and that each answers a
next state. -/

namespace Sys2Proof.Machine

/-! ## Fetch -/

theorem wordOfBytes_toNat (hi lo : Byte) : (wordOfBytes hi lo).toNat = hi.toNat * 256 + lo.toNat := by
  rw [wordOfBytes, BitVec.toNat_append, ← Nat.shiftLeft_add_eq_or_of_lt lo.isLt, Nat.shiftLeft_eq]

section Step
variable {s : State}

theorem step_of_fetched (hf : s.faultStatus = none) (hpc : s.pc.toNat + 1 < memSize) :
    step s = execWord (s.wordAt s.pc.toNat) s.advance := by
  simp only [step, hf, State.fetch_eq, if_pos hpc]

theorem step_of_fetch_fault (hf : s.faultStatus = none) (hpc : memSize ≤ s.pc.toNat + 1) :
    step s = .next { s with faultStatus := some (.invalidMemoryAddress (max s.pc.toNat memSize)) } := by
  simp only [step, hf, State.fetch_eq, if_neg (Nat.not_lt.mpr hpc), State.raise_eq]

end Step

/-! ## Execution of a word (60_exceptions.md R173) -/

theorem execWord_of_instr {op : Word} {i : Instr} (h : decode op = .instr i) (s : State) :
    execWord op s = exec i s := by
  simp only [execWord, h]

/-- Both fallbacks carry the word that was decoded, so the fault has it as its payload. -/
theorem execWord_of_not_instr {op : Word} (h : ∀ i, decode op ≠ .instr i) (s : State) :
    execWord op s = .next { s with faultStatus := some (.unsupportedInstruction op) } := by
  have hdesc := decode_describes op
  cases hd : decode op with
  | instr i => exact absurd hd (h i)
  | unsupported w | arithmeticUnknown x y w =>
    rw [hd] at hdesc
    obtain ⟨hw, -⟩ := hdesc
    simp only [execWord, hd, hw, State.takeUnsupported, State.raise_eq]

/-! ## Every meaning answers -/

theorem settle_answers (r : Except (Fault × State) State) : ∃ t, settle r = .next t := by
  cases r with
  | ok t => exact ⟨t, settle_ok t⟩
  | error e => exact ⟨_, settle_error e.1 e.2⟩

theorem exec_answers (i : Instr) (s : State) : ∃ t, exec i s = .next t := by
  cases i with
  | subroutineReturn => obtain ⟨-, h⟩ | ⟨_, _, -, h⟩ := execSubroutineReturn_cases s <;> exact ⟨_, h⟩
  | subroutineCall nnn => obtain ⟨-, h⟩ | ⟨-, h⟩ := execSubroutineCall_cases nnn s <;> exact ⟨_, h⟩
  | skipIfKeyPressed x | skipIfKeyReleased x =>
    obtain ⟨_, -, h⟩ | ⟨-, h⟩ := s.skipIfKey_cases x _ <;> exact ⟨_, h⟩
  | getKey x => obtain ⟨-, h⟩ | ⟨_, -, h⟩ := execGetKey_cases x s <;> exact ⟨_, h⟩
  | draw x y n => obtain ⟨-, h⟩ | ⟨-, h⟩ := execDraw_cases x y n s <;> exact ⟨_, h⟩
  | decimalConversion | storeRegisters | loadRegisters => exact settle_answers _
  | _ => exact ⟨_, rfl⟩

theorem execWord_answers (op : Word) (s : State) : ∃ t, execWord op s = .next t := by
  by_cases h : ∃ i, decode op = .instr i
  · obtain ⟨i, hi⟩ := h
    exact execWord_of_instr hi s ▸ exec_answers i s
  · exact ⟨_, execWord_of_not_instr (not_exists.mp h) s⟩

/-! ## The obligations -/

/-- Settles O6: the fetch reads the word of the two bytes, and the word executes as its instruction. -/
theorem stepRunsDecodedInstruction : Obligations.StepRunsDecodedInstruction := by
  intro s i hf hpc hdecode
  rw [step_of_fetched hf hpc]
  exact execWord_of_instr hdecode s.advance

/-- Settles O7, by `State.fetch_eq`: a fetch reports the larger of `pc` and 4096. -/
theorem fetchReadsHighByteFirst : Obligations.FetchReadsHighByteFirst := by
  refine fun s => ⟨fun hpc => ?inside, fun hpc => ?last, fun hpc => ?outside, fun hf hpc => ?step⟩
  case inside => exact ⟨s.wordAt s.pc.toNat, (State.fetch_eq s).trans (if_pos hpc), wordOfBytes_toNat _ _⟩
  case last => rw [State.fetch_eq, hpc]; rfl
  case outside =>
    have hout : ¬s.pc.toNat + 1 < memSize := Nat.not_lt.mpr (Nat.le_succ_of_le hpc)
    have hmax : max s.pc.toNat memSize = s.pc.toNat := Nat.max_eq_left hpc
    rw [State.fetch_eq, if_neg hout, hmax]
  case step => exact ⟨_, step_of_fetch_fault hf (Nat.succ_le_succ hpc), rfl, sameExcept_fault s _⟩

/-- Settles O10: a faulted machine stays, a fetch that faults records it, and every fetched word answers. -/
theorem stepAlwaysAnswers : Obligations.StepAlwaysAnswers := by
  intro s
  cases hf : s.faultStatus with
  | some f => exact ⟨s, step_of_fault hf⟩
  | none =>
    by_cases hpc : s.pc.toNat + 1 < memSize
    · rw [step_of_fetched hf hpc]
      exact execWord_answers _ _
    · exact ⟨_, step_of_fetch_fault hf (Nat.not_lt.mp hpc)⟩

end Sys2Proof.Machine
end

section
/-! PROOFS. The unsupported space (30_encoding.md R79) and its counts. -/

namespace Sys2Proof.Machine

/-! ## Counting the unsupported words of a family -/

theorem fieldNN_wordXYN (f x y n : Nibble) : fieldNN (wordXYN f x y n) = y ++ n := by
  apply BitVec.eq_of_getLsbD_eq
  intro k hk
  have hy : k - 4 < 4 := by omega
  simp only [fieldNN, wordXYN, BitVec.getLsbD_extractLsb', BitVec.getLsbD_append]
  simp [hk, hy]

theorem inUnsupportedSpace_wordXYN (f x y n : Nibble) :
    inUnsupportedSpace (wordXYN f x y n) = inUnsupportedSpace (wordXYN f 0 y n) := by
  simp only [inUnsupportedSpace, fieldF_wordXYN, fieldN_wordXYN, fieldNN_wordXYN]

/-- R79's table does not look at `x`, so one of its sixteen values is counted for all. -/
theorem unsupportedWords_eq (f : Nibble) : unsupportedWords f =
    16 * (allNibbles.map fun y => allNibbles.countP fun n => inUnsupportedSpace (wordXYN f 0 y n)).sum := by
  have hlen : allNibbles.length = 16 := rfl
  simp only [unsupportedWords, inUnsupportedSpace_wordXYN f, List.map_const', List.sum_replicate, smul_eq_mul, hlen]

theorem unsupportedWords_of_full_family {f : Nibble} (h : f ∉ partialFamilies) : unsupportedWords f = 0 := by
  have hfull (x y n : Nibble) : inUnsupportedSpace (wordXYN f x y n) = false :=
    inUnsupportedSpace_of_full_family (fieldF_wordXYN f x y n) h
  simp [unsupportedWords, hfull]

/-- The counts of R79, by family. -/
def unsupportedCount (f : Nibble) : Nat :=
  if f = 0x5 ∨ f = 0x9 then 3840 else if f = 0x8 then 1792 else if f = 0xE then 4064 else if f = 0xF then 3952 else 0

theorem unsupportedCount_of_full_family {f : Nibble} (h : f ∉ partialFamilies) : unsupportedCount f = 0 := by
  simp_all [partialFamilies, unsupportedCount]

theorem unsupportedWords_eq_count (f : Nibble) : unsupportedWords f = unsupportedCount f := by
  by_cases h : f ∈ partialFamilies
  · rw [unsupportedWords_eq]
    revert f
    decide
  · rw [unsupportedWords_of_full_family h, unsupportedCount_of_full_family h]

/-! ## The obligation -/

/-- Settles O4: the decoder's answer says whether the word is in R79's table, and the families' counts add up. -/
theorem unsupportedSpace : Obligations.UnsupportedSpace := by
  refine ⟨fun op s hin => ?inside, fun op => exists_instr_of_not_unsupported, unsupportedWords_eq_count 0x5,
    unsupportedWords_eq_count 0x8, unsupportedWords_eq_count 0x9, unsupportedWords_eq_count 0xE,
    unsupportedWords_eq_count 0xF, ?total⟩
  case inside =>
    have hnot (i : Instr) (hi : decode op = .instr i) : False := by
      obtain ⟨-, -, hout⟩ := decode_instr hi
      simp [hin] at hout
    exact ⟨hnot, _, execWord_of_not_instr hnot s, rfl⟩
  case total =>
    rw [funext unsupportedWords_eq_count]
    decide

end Sys2Proof.Machine
end

section
/-! PROOFS. The jump, the call and the return (40_flow.md R101 to R103): what each answers on each side of the stack's
limits, and that a return undoes a call. -/

namespace Sys2Proof.Machine

/-- An immediate is zero-extended, so a jump's target is `nnn` itself (30_encoding.md R75). -/
@[simp] theorem immediateWord_toNat (nnn : Addr12) : (immediateWord nnn).toNat = nnn.toNat :=
  BitVec.toNat_setWidth_of_le (by decide)

/-- The frame that a call and a return share: a new stack and a new `pc`. -/
theorem sameExcept_stack_setPc (s : State) (l : List Word) (w : Word) :
    SameExcept [.pc, .stack] s (({ s with stack := l } : State).setPc w) :=
  ((sameExcept_stack s l).append (sameExcept_setPc _ w)).mono (by decide)

section Flow
variable {s : State}

theorem exec_subroutineReturn_of_cons {w : Word} {ws : List Word} (h : s.stack = w :: ws) :
    exec .subroutineReturn s = .next (({ s with stack := ws } : State).setPc w) := by
  simp only [exec, execSubroutineReturn, State.pop_cons s w ws h]

theorem exec_subroutineReturn_of_nil (h : s.stack = []) :
    exec .subroutineReturn s = .next { s with faultStatus := some .stackUnderflow } := by
  simp only [exec, execSubroutineReturn, State.pop_nil s h, State.raise_eq]

theorem exec_subroutineCall_of_room (nnn : Addr12) (h : s.stack.length < stackCap) :
    exec (.subroutineCall nnn) s =
      .next (({ s with stack := s.pc :: s.stack } : State).setPc (immediateWord nnn)) := by
  simp only [exec, execSubroutineCall, State.push_room s s.pc h]

theorem exec_subroutineCall_of_full (nnn : Addr12) (h : stackCap ≤ s.stack.length) :
    exec (.subroutineCall nnn) s = .next { s with faultStatus := some .stackOverflow } := by
  simp only [exec, execSubroutineCall, State.push_full s s.pc h, State.raise_eq]

end Flow

/-! ## The obligations -/

/-- Settles O25: the pop gives the most recent entry, which becomes `pc`, or underflows. -/
theorem returnPopsProgramCounter : Obligations.ReturnPopsProgramCounter := by
  refine ⟨decode_encode (i := .subroutineReturn) rfl, fun s w ws hst => ?entry, fun s hst => ?empty⟩
  case entry => exact ⟨_, exec_subroutineReturn_of_cons hst, rfl, rfl, sameExcept_stack_setPc s ws w⟩
  case empty => exact ⟨_, exec_subroutineReturn_of_nil hst, rfl⟩

/-- Settles O26: the meaning is the one update of `pc`, whose frame is `sameExcept_setPc`. -/
theorem jumpSetsProgramCounter : Obligations.JumpSetsProgramCounter :=
  fun nnn => ⟨decode_encode (i := .jump nnn) rfl, fun s => ⟨_, rfl, immediateWord_toNat nnn, sameExcept_setPc s _⟩⟩

/-- Settles O27: the push comes first, so a full stack leaves `pc` as well as the stack. -/
theorem callPushesReturnAddress : Obligations.CallPushesReturnAddress := by
  refine fun nnn => ⟨decode_encode (i := .subroutineCall nnn) rfl, fun s hroom => ?room, fun s hfull => ?full⟩
  case room =>
    exact ⟨_, exec_subroutineCall_of_room nnn hroom, rfl, immediateWord_toNat nnn, sameExcept_stack_setPc s _ _⟩
  case full => exact ⟨_, exec_subroutineCall_of_full nnn hfull.ge, rfl, rfl, rfl⟩

/-- Settles O29: the entry the call pushed is the `pc` it started from, and the return pops that entry. -/
theorem callThenReturnRestores : Obligations.CallThenReturnRestores :=
  fun nnn _ hroom => ⟨_, exec_subroutineCall_of_room nnn hroom, exec_subroutineReturn_of_cons rfl⟩

end Sys2Proof.Machine
end

section
/-! PROOFS. The conditional skips (41_skips.md R109 to R115): what each decodes from, and that a skip moves `pc` by 2 more
exactly when its condition holds. -/

namespace Sys2Proof.Machine

/-! ## Decoding -/

/-- Families 5 and 9 have an instruction for the low nibble 0 alone (the spec's decision D4). -/
theorem decode_registerSkip_unsupported {f n : Nibble} (hf : f = 0x5 ∨ f = 0x9) (hn : n ≠ 0) (x y : Nibble) :
    decode (wordXYN f x y n) = .unsupported (wordXYN f x y n) := by
  obtain rfl | rfl := hf <;> simpa [decode] using hn

/-! ## A skip on a condition (R109) -/

section Skip
variable {s : State} {x : Nibble}

/-- A meaning that is `skipIf` on a test of `p` moves `pc` by 2 exactly when `p` holds, and changes nothing else. -/
theorem skipIf_answers {o : Host.Outcome State Fault Refusal} {c : Bool} {p : Prop} [Decidable p]
    (ho : o = .next (s.skipIf c)) (hc : c = true ↔ p) :
    ∃ t, o = .next t ∧ t.pc = (if p then s.pc + 2 else s.pc) ∧ SameExcept [.pc] s t := by
  refine ⟨s.skipIf c, ho, ?_, sameExcept_skipIf s c⟩
  rw [State.skipIf_eq]
  exact if_congr hc rfl rfl

/-- The comparison of bytes is that of unsigned values (R110). -/
theorem byte_beq_iff (a b : Byte) : (a == b) = true ↔ a.toNat = b.toNat :=
  beq_iff_eq.trans BitVec.toNat_inj.symm

theorem byte_bne_iff (a b : Byte) : (a != b) = true ↔ a.toNat ≠ b.toNat :=
  bne_iff_ne.trans BitVec.toNat_inj.not.symm

/-! ## A skip on a key (R114, R115) -/

/-- The key that a register's value names is unique, so `skipIfKey` tests that key. -/
theorem skipIfKey_of_key {k : Nibble} (h : (s.reg x).toNat = k.toNat) (pressed : Bool) :
    s.skipIfKey x pressed = .next (s.skipIf (s.key k == pressed)) := by
  obtain ⟨l, hl, e⟩ | ⟨hgt, -⟩ := s.skipIfKey_cases x pressed
  · obtain rfl : l = k := BitVec.eq_of_toNat_eq (hl.symm.trans h)
    rw [e, State.skipIf_eq]
  · exact absurd k.isLt (by omega)

theorem skipIfKey_of_invalid (h : 15 < (s.reg x).toNat) (pressed : Bool) :
    s.skipIfKey x pressed = .next { s with faultStatus := some (.invalidKey (s.reg x)) } := by
  obtain ⟨k, hk, -⟩ | ⟨-, e⟩ := s.skipIfKey_cases x pressed
  · exact absurd k.isLt (by omega)
  · exact e

end Skip

/-! ## The obligations -/

/-- Settles O30: each polarity is `skipIf` on its comparison of the register with the immediate. -/
theorem skipOnValue : Obligations.SkipOnValue :=
  fun x nn => ⟨decode_encode (i := .skipEqualValue x nn) rfl, decode_encode (i := .skipNotEqualValue x nn) rfl,
    fun s => ⟨skipIf_answers rfl (byte_beq_iff (s.reg x) nn), skipIf_answers rfl (byte_bne_iff (s.reg x) nn)⟩⟩

/-- Settles O31: each polarity is `skipIf` on its comparison of the two registers. -/
theorem skipOnRegister : Obligations.SkipOnRegister := by
  refine fun x y => ⟨decode_encode (i := .skipEqualRegister x y) rfl,
    decode_encode (i := .skipNotEqualRegister x y) rfl, fun n hn => ?unsupported, fun s => ?skip⟩
  case unsupported =>
    exact ⟨decode_registerSkip_unsupported (.inl rfl) hn x y, decode_registerSkip_unsupported (.inr rfl) hn x y⟩
  case skip =>
    exact ⟨skipIf_answers rfl (byte_beq_iff (s.reg x) (s.reg y)), skipIf_answers rfl (byte_bne_iff (s.reg x) (s.reg y))⟩

/-- Settles O32: a value up to 15 names one key, whose state is tested; a larger one names none and faults. -/
theorem skipOnKey : Obligations.SkipOnKey := by
  refine fun x => ⟨decode_encode (i := .skipIfKeyPressed x) rfl, decode_encode (i := .skipIfKeyReleased x) rfl,
    fun s k hk => ?key, fun s hgt => ?invalid⟩
  case key =>
    exact ⟨skipIf_answers (skipIfKey_of_key hk true) beq_iff_eq, skipIf_answers (skipIfKey_of_key hk false) beq_iff_eq⟩
  case invalid =>
    exact ⟨⟨_, skipIfKey_of_invalid hgt true, rfl⟩, ⟨_, skipIfKey_of_invalid hgt false, rfl⟩⟩

end Sys2Proof.Machine
end

section
/-! PROOFS. Registers and the ALU (42_alu.md R119 to R131): what a register holds after a plain write and after a write with
the flag, and the value of each operator as a number. -/

namespace Sys2Proof.Machine

/-! ## Registers after a write (10_state.md R20, R21) -/

section Writes
variable (s : State) (x : Nibble) (b : Byte) (c : Bool)

theorem setReg_reg_self : (s.setReg x b).reg x = b := by
  rw [State.reg_setReg, if_pos rfl]

theorem regsSameExcept_setReg : RegsSameExcept [x] s (s.setReg x b) :=
  fun _ hr => setReg_reg_of_not_mem s b hr

/-- The flag is written last, so it leaves the result only in a destination other than VF. -/
theorem setRegFlag_reg_self (hx : x ≠ 15) : (s.setRegFlag x b c).reg x = b :=
  (setFlag_reg_of_ne (s.setReg x b) c hx).trans (setReg_reg_self s x b)

theorem setRegFlag_reg_vf : (s.setRegFlag x b c).reg 15 = flagByte c :=
  setReg_reg_self (s.setReg x b) vf (flagByte c)

theorem regsSameExcept_setRegFlag : RegsSameExcept [x, 15] s (s.setRegFlag x b c) := by
  intro r hr
  obtain ⟨hx, hvf⟩ : r ≠ x ∧ r ≠ 15 := by simpa using hr
  exact setRegFlag_reg_of_ne s b c (mt List.mem_singleton.mp hx) hvf

end Writes

/-! ## Flags as values of VF (10_state.md R22) -/

theorem flagByte_decide (p : Prop) [Decidable p] : flagByte (decide p) = if p then 1 else 0 :=
  if_congr decide_eq_true_iff rfl rfl

theorem flagByte_toNat (c : Bool) : (flagByte c).toNat = c.toNat := by
  cases c <;> rfl

/-- A flag that is bit `k` of a byte, as a number. -/
theorem flagByte_getLsbD_toNat (b : Byte) (k : Nat) : (flagByte (b.getLsbD k)).toNat = b.toNat / 2 ^ k % 2 :=
  (flagByte_toNat _).trans (Nat.toNat_testBit b.toNat k)

theorem flagByte_rightShiftFlag_toNat (src : Byte) : (flagByte (rightShiftFlag src)).toNat = src.toNat % 2 := by
  rw [rightShiftFlag, flagByte_getLsbD_toNat, Nat.pow_zero, Nat.div_one]

/-- The quotient by 128 of a byte is one bit. -/
theorem flagByte_leftShiftFlag_toNat (src : Byte) : (flagByte (leftShiftFlag src)).toNat = src.toNat / 128 := by
  rw [leftShiftFlag, flagByte_getLsbD_toNat]
  omega

/-! ## Results as numbers (42_alu.md R119) -/

theorem addBytes_toNat (a b : Byte) : (addBytes a b).toNat = (a.toNat + b.toNat) % 256 :=
  BitVec.toNat_ofNat _ 8

/-- The smaller operand is taken from the larger, so nothing wraps (R127). -/
theorem absDifference_toNat (a b : Byte) : ((absDifference a b).toNat : Int) = |(a.toNat : Int) - (b.toNat : Int)| := by
  unfold absDifference
  split_ifs with hle
  · rw [BitVec.toNat_ofNat, abs_of_nonneg (by omega)]
    omega
  · rw [BitVec.toNat_ofNat, abs_of_neg (by omega)]
    omega

theorem halve_toNat (src : Byte) : (halve src).toNat = src.toNat / 2 := by
  rw [halve, BitVec.toNat_ushiftRight, Nat.shiftRight_one]

theorem double_toNat (src : Byte) : (double src).toNat = src.toNat * 2 % 256 := by
  rw [double, BitVec.toNat_shiftLeft, Nat.shiftLeft_eq, Nat.pow_one]

/-- The two variants fix the source of a shift (42_alu.md R129). -/
theorem shiftSource_eq {s : State} {x y : Nibble} {src : Byte} (hvip : s.cfg.variant = .cosmacVip → src = s.reg y)
    (h48 : s.cfg.variant = .chip48 → src = s.reg x) : s.shiftSource x y = src := by
  unfold State.shiftSource
  split
  · next h => exact (hvip h).symm
  · next h => exact (h48 h).symm

/-! ## Meanings that share their clauses -/

section Meanings
variable {s : State} {x : Nibble} {o : Host.Outcome State Fault Refusal} {a b : Byte}

/-- A logical operator answers the byte whose bits it gives (R123 to R125). -/
theorem bitwise_answers {bit : Nat → Bool} (ho : o = .next (s.setReg x b)) (hb : ∀ k, b.getLsbD k = bit k) :
    ∃ t, o = .next t ∧ (∀ k, (t.reg x).getLsbD k = bit k) ∧ RegsSameExcept [x] s t ∧ SameExcept [.regs] s t := by
  refine ⟨_, ho, fun k => ?_, regsSameExcept_setReg s x b, sameExcept_setReg s x b⟩
  rw [setReg_reg_self, hb]

/-- Both subtractions, each with its own order of the operands (R127, R128). -/
theorem subtraction_answers (ho : o = .next (s.setRegFlag x (absDifference a b) (noBorrowFlag a b))) :
    ∃ t, o = .next t ∧ (x ≠ 15 → ((t.reg x).toNat : Int) = |(a.toNat : Int) - (b.toNat : Int)|) ∧
      t.reg 15 = (if a.toNat ≥ b.toNat then 1 else 0) ∧ RegsSameExcept [x, 15] s t ∧ SameExcept [.regs] s t := by
  refine ⟨_, ho, fun hx => ?difference, ?noBorrow, regsSameExcept_setRegFlag s x _ _, sameExcept_setRegFlag s x _ _⟩
  case difference => rw [setRegFlag_reg_self s x _ _ hx, absDifference_toNat]
  case noBorrow => rw [setRegFlag_reg_vf, noBorrowFlag, flagByte_decide]

end Meanings

/-! ## The obligations -/

/-- Settles O33: each meaning is one write of the destination. -/
theorem immediateSetAndAdd : Obligations.ImmediateSetAndAdd := by
  refine fun x nn => ⟨decode_encode (i := .setRegister x nn) rfl, decode_encode (i := .addValueRegister x nn) rfl,
    fun s => ⟨?set, ?add⟩⟩
  case set => exact ⟨_, rfl, setReg_reg_self s x nn, regsSameExcept_setReg s x _, sameExcept_setReg s x _⟩
  case add =>
    refine ⟨_, rfl, ?_, regsSameExcept_setReg s x _, sameExcept_setReg s x _⟩
    rw [setReg_reg_self, addBytes_toNat]

/-- Settles O34: each meaning is one write of the destination, whose bits are those of the operator. -/
theorem logicalOperators : Obligations.LogicalOperators := by
  refine fun x y => ⟨decode_encode (i := .aluSet x y) rfl, decode_encode (i := .aluOr x y) rfl,
    decode_encode (i := .aluAnd x y) rfl, decode_encode (i := .aluXor x y) rfl, fun s => ⟨?set, ?or, ?and, ?xor⟩⟩
  case set => exact ⟨_, rfl, setReg_reg_self s x _, regsSameExcept_setReg s x _, sameExcept_setReg s x _⟩
  case or => exact bitwise_answers rfl fun _ => BitVec.getLsbD_or
  case and => exact bitwise_answers rfl fun _ => BitVec.getLsbD_and
  case xor => exact bitwise_answers rfl fun _ => BitVec.getLsbD_xor

/-- Settles O35: the sum is written and then the carry, both of the operands before the step. -/
theorem addSetsCarry : Obligations.AddSetsCarry := by
  refine fun x y => ⟨decode_encode (i := .aluAdd x y) rfl, fun s =>
    ⟨_, rfl, fun hx => ?sum, ?carry, regsSameExcept_setRegFlag s x _ _, sameExcept_setRegFlag s x _ _⟩⟩
  case sum => rw [setRegFlag_reg_self s x _ _ hx, addBytes_toNat]
  case carry => rw [setRegFlag_reg_vf, carryFlag, flagByte_decide]

/-- Settles O36: both write the absolute difference, each with its own order of the operands, and then no borrow. -/
theorem subtractGivesAbsoluteDifference : Obligations.SubtractGivesAbsoluteDifference :=
  fun x y => ⟨decode_encode (i := .aluSubtract x y) rfl, decode_encode (i := .aluSubtractInverse x y) rfl,
    fun _ => ⟨subtraction_answers rfl, subtraction_answers rfl⟩⟩

/-- Settles O37: the variant fixes the source, which is halved or doubled before its outer bit becomes the flag. -/
theorem shiftsByVariant : Obligations.ShiftsByVariant := by
  refine fun x y => ⟨decode_encode (i := .aluShiftRight x y) rfl, decode_encode (i := .aluShiftLeft x y) rfl,
    fun s src hvip h48 => ?_⟩
  obtain rfl := shiftSource_eq hvip h48
  refine ⟨?right, ?left⟩
  case right =>
    refine ⟨_, rfl, fun hx => ?_, ?_, regsSameExcept_setRegFlag s x _ _, sameExcept_setRegFlag s x _ _⟩
    · rw [setRegFlag_reg_self s x _ _ hx, halve_toNat]
    · rw [setRegFlag_reg_vf, flagByte_rightShiftFlag_toNat]
  case left =>
    refine ⟨_, rfl, fun hx => ?_, ?_, regsSameExcept_setRegFlag s x _ _, sameExcept_setRegFlag s x _ _⟩
    · rw [setRegFlag_reg_self s x _ _ hx, double_toNat]
    · rw [setRegFlag_reg_vf, flagByte_leftShiftFlag_toNat]

end Sys2Proof.Machine
end

section
/-! PROOFS. Index and memory (43_index_memory.md R140 to R145): the values of `I`, the digits of a register, and the
block transfers on each side of the end of memory. -/

namespace Sys2Proof.Machine

/-! ## The index (R140, R142, R144) -/

/-- The largest font address is 0xFFF + 75, so nothing wraps. -/
theorem fontAddress_toNat (c : Config) (b : Byte) :
    (fontAddress c b).toNat = c.fontBase.toNat + b.toNat % 16 * 5 := by
  rw [fontAddress, BitVec.toNat_ofNat]
  omega

theorem advanceIndex_i_toNat (s : State) (x : Nibble) : (s.advanceIndex x).i.toNat = indexAfterBlock s x := by
  unfold State.advanceIndex indexAfterBlock
  cases s.cfg.variant with
  | cosmacVip => exact BitVec.toNat_ofNat _ 16
  | chip48 => rfl

theorem sameExcept_index_advanceIndex (s : State) (x : Nibble) : SameExcept [.index] s (s.advanceIndex x) :=
  State.advanceIndex_eq s x ▸ sameExcept_setIndex s _

/-! ## Decimal digits (R143) -/

/-- Every quotient and remainder of the conversion is below 256, so the digits are stored whole. -/
theorem decimalDigits_toNat (b : Byte) :
    (decimalDigits b).map BitVec.toNat = [b.toNat / 100, b.toNat / 10 % 10, b.toNat % 10] := by
  have hhundreds : b.toNat / 100 < 256 := by omega
  have htens : b.toNat / 10 % 10 < 256 := by omega
  have hunits : b.toNat % 10 < 256 := by omega
  simp [decimalDigits, Nat.mod_eq_of_lt, hhundreds, htens, hunits]

theorem decimalDigits_getD_toNat (b : Byte) (k : Nat) :
    ((decimalDigits b).getD k 0).toNat = [b.toNat / 100, b.toNat / 10 % 10, b.toNat % 10].getD k 0 := by
  rw [← decimalDigits_toNat]
  exact (List.getD_map _ _ _).symm

section Blocks
variable {s : State} {x : Nibble}

/-! ## Blocks that fit in memory (R143, R145) -/

theorem execDecimalConversion_fits (h : s.i.toNat + 3 ≤ memSize) :
    ∃ m, execDecimalConversion x s = .next { s with mem := m } ∧
      ∀ b, ({ s with mem := m } : State).peek b = if s.i.toNat ≤ b ∧ b < s.i.toNat + 3
        then (decimalDigits (s.reg x)).getD (b - s.i.toNat) 0 else s.peek b := by
  obtain ⟨t, ht, hframe, -, hpeek⟩ := s.writeBytes_ok s.i.toNat (decimalDigits (s.reg x)) (.inr h)
  refine ⟨t.mem, ?_, fun b => ?_⟩
  · rw [execDecimalConversion, ht, settle_ok, ← hframe]
  · rw [← hframe]
    exact hpeek b

theorem execLoadRegisters_fits (h : s.i.toNat + x.toNat < memSize) :
    ∃ v, execLoadRegisters x s = .next (({ s with v := v } : State).advanceIndex x) ∧
      ∀ r : Nibble, ({ s with v := v } : State).reg r =
        if r.toNat ≤ x.toNat then s.peek (s.i.toNat + r.toNat) else s.reg r := by
  obtain ⟨t, ht, hframe, hreg⟩ := s.loadRegs_ok s.i.toNat 0 (x.toNat + 1) (by omega) (.inr h)
  refine ⟨t.v, ?_, fun r => ?_⟩
  · rw [execLoadRegisters, registersUpTo_eq, ht, Except.map, settle_ok, ← hframe]
  · rw [← hframe, hreg, Nat.sub_zero]
    exact if_congr (by omega) rfl rfl

/-! ## Blocks that run past the end of memory (R143 to R145; the spec's decision D18) -/

theorem execDecimalConversion_past_end (h : memSize < s.i.toNat + 3) :
    ∃ t, execDecimalConversion x s = .next t ∧
      t.faultStatus = some (.invalidMemoryAddress (max s.i.toNat memSize)) := by
  obtain ⟨u, hu, -⟩ := s.writeBytes_error s.i.toNat (decimalDigits (s.reg x)) (by simp [decimalDigits]) h
  exact ⟨{ u with faultStatus := _ }, by rw [execDecimalConversion, hu, settle_error, State.raise_eq], rfl⟩

/-- A transfer that faults part-way does not reach its move of `I`. -/
theorem settle_map_of_error {r : Except (Fault × State) State} {f : Fault} {u : State} (g : State → State)
    (hr : r = .error (f, u)) (hi : u.i = s.i) :
    ∃ t, settle (r.map g) = .next t ∧ t.faultStatus = some f ∧ t.i = s.i :=
  ⟨{ u with faultStatus := some f }, by rw [hr, Except.map, settle_error, State.raise_eq], rfl, hi⟩

theorem execStoreRegisters_past_end (h : memSize < s.i.toNat + (x.toNat + 1)) :
    ∃ t, execStoreRegisters x s = .next t ∧
      t.faultStatus = some (.invalidMemoryAddress (max s.i.toNat memSize)) ∧ t.i = s.i := by
  have hlen : ((registersUpTo x).map s.reg).length = x.toNat + 1 := by simp [registersUpTo]
  obtain ⟨u, hu, hframe, -⟩ := s.writeBytes_error s.i.toNat ((registersUpTo x).map s.reg)
    (List.ne_nil_of_length_eq_add_one hlen) (hlen.symm ▸ h)
  exact settle_map_of_error _ hu (by rw [hframe])

theorem execLoadRegisters_past_end (h : memSize < s.i.toNat + (x.toNat + 1)) :
    ∃ t, execLoadRegisters x s = .next t ∧
      t.faultStatus = some (.invalidMemoryAddress (max s.i.toNat memSize)) ∧ t.i = s.i := by
  obtain ⟨u, hu, hframe, -⟩ := s.loadRegs_error s.i.toNat 0 (x.toNat + 1) (by omega) (by omega) h
  exact settle_map_of_error _ (registersUpTo_eq x ▸ hu) (by rw [hframe])

end Blocks

/-! ## The obligations -/

/-- Settles O41: a block that fits is written whole before `I` moves; one that does not stops before `I` moves. -/
theorem storeRegistersWritesBlock : Obligations.StoreRegistersWritesBlock := by
  refine fun x => ⟨decode_encode (i := .storeRegisters x) rfl, fun s hfits => ?fits, fun s hpast => ?past⟩
  case fits =>
    obtain ⟨m, hexec, hpeek⟩ := execStoreRegisters_fits (Nat.lt_succ_of_le hfits)
    refine ⟨_, hexec, fun r hr => ?stored, fun b hb => ?outside, advanceIndex_i_toNat _ x,
      (sameExcept_mem s m).append (sameExcept_index_advanceIndex _ x)⟩
    case stored =>
      rw [State.advanceIndex_peek, hpeek, if_pos (by omega), Nat.add_sub_cancel_left, State.blockByte s x r hr]
    case outside => rw [State.advanceIndex_peek, hpeek, if_neg (by omega)]
  case past => exact execStoreRegisters_past_end (Nat.succ_lt_succ hpast)

/-- Settles O42: a block that fits is loaded whole before `I` moves; one that does not stops before `I` moves. -/
theorem loadRegistersReadsBlock : Obligations.LoadRegistersReadsBlock := by
  refine fun x => ⟨decode_encode (i := .loadRegisters x) rfl, fun s hfits => ?fits, fun s hpast => ?past⟩
  case fits =>
    obtain ⟨v, hexec, hreg⟩ := execLoadRegisters_fits (Nat.lt_succ_of_le hfits)
    refine ⟨_, hexec, fun r => ?loaded, advanceIndex_i_toNat _ x,
      (sameExcept_regs s v).append (sameExcept_index_advanceIndex _ x)⟩
    case loaded => rw [State.advanceIndex_eq, State.setIndex_reg, hreg]
  case past => exact execLoadRegisters_past_end (Nat.succ_lt_succ hpast)

/-- Settles O38: each meaning is the one update of `I`, whose frame is `sameExcept_setIndex`. -/
theorem indexSetAndFontLookup : Obligations.IndexSetAndFontLookup := by
  refine ⟨fun nnn => ⟨decode_encode (i := .setIndex nnn) rfl, fun s => ?set⟩,
    fun x => ⟨decode_encode (i := .fontCharacter x) rfl, fun s => ?font⟩⟩
  case set => exact ⟨_, rfl, immediateWord_toNat nnn, sameExcept_setIndex s _⟩
  case font => exact ⟨_, rfl, fontAddress_toNat s.cfg (s.reg x), sameExcept_setIndex s _⟩

/-- Settles O40: the bytes written are the three digits, and `I + 2` is the last address of the block. -/
theorem decimalConversionStoresDigits : Obligations.DecimalConversionStoresDigits := by
  refine fun x => ⟨decode_encode (i := .decimalConversion x) rfl, fun s hfits => ?fits, fun s hpast => ?past⟩
  case fits =>
    obtain ⟨m, hexec, hpeek⟩ := execDecimalConversion_fits (x := x) (Nat.succ_le_succ hfits)
    have hdigit (k : Nat) (hk : k < 3) : (State.peek { s with mem := m } (s.i.toNat + k)).toNat =
        [(s.reg x).toNat / 100, (s.reg x).toNat / 10 % 10, (s.reg x).toNat % 10].getD k 0 := by
      rw [hpeek, if_pos (by omega), Nat.add_sub_cancel_left, decimalDigits_getD_toNat]
    refine ⟨_, hexec, hdigit 0 (by decide), hdigit 1 (by decide), hdigit 2 (by decide), fun b hb => ?outside,
      sameExcept_mem s m⟩
    case outside => rw [hpeek, if_neg (by omega)]
  case past => exact execDecimalConversion_past_end (Nat.succ_lt_succ hpast)

end Sys2Proof.Machine
end

section
/-! PROOFS. The display (44_display.md R150 to R153): what one draw leaves in each pixel and in VF, in the words of
`drawsOn`, and from that what two draws in turn leave. -/

namespace Sys2Proof.Machine

/-! ## The state after a draw whose bytes lie in memory -/

/-- The state that `Draw(x, y, n)` answers when it does not fault. -/
def State.afterDraw (s : State) (x y n : Nibble) : State :=
  s.drawAt (s.reg x) (s.reg y) (s.bytesAt s.i.toNat n.toNat)

section Draw
variable {s : State} {x y n : Nibble} {px py : Nat}

theorem toNat_eq_zero_or_iff {p : Prop} : n.toNat = 0 ∨ p ↔ n = 0 ∨ p :=
  or_congr_left (BitVec.toNat_inj (y := 0))

theorem exec_draw_fits (h : n = 0 ∨ s.i.toNat + n.toNat ≤ memSize) :
    exec (.draw x y n) s = .next (s.afterDraw x y n) := by
  obtain ⟨-, e⟩ | ⟨hpast, -⟩ := execDraw_cases x y n s
  · exact e
  · exact absurd (toNat_eq_zero_or_iff.mpr h) hpast

theorem exec_draw_past_end (hn : n ≠ 0) (h : memSize < s.i.toNat + n.toNat) :
    exec (.draw x y n) s = .next { s with faultStatus := some (.invalidMemoryAddress (max s.i.toNat memSize)) } := by
  obtain ⟨hfits, -⟩ | ⟨-, e⟩ := execDraw_cases x y n s
  · exact absurd (toNat_eq_zero_or_iff.mp hfits) (not_or.mpr ⟨hn, Nat.not_le.mpr h⟩)
  · exact e

/-- A pixel is on after the draw when it was off and the sprite draws on it, or was on and the sprite does not. -/
theorem afterDraw_pixel_iff : (s.afterDraw x y n).pixel px py = true ↔
    (drawsOn s x y n px py ∧ s.pixel px py = false ∨ ¬drawsOn s x y n px py ∧ s.pixel px py = true) := by
  simp only [State.pixel, decide_eq_true_eq, decide_eq_false_iff_not]
  exact (mem_drawSprite ..).trans ite_prop_iff_or

theorem afterDraw_pixel_of_drawsOn (h : drawsOn s x y n px py) :
    (s.afterDraw x y n).pixel px py = !s.pixel px py := by
  rw [Bool.eq_iff_iff, afterDraw_pixel_iff]
  simp [h]

theorem afterDraw_pixel_of_not_drawsOn (h : ¬drawsOn s x y n px py) :
    (s.afterDraw x y n).pixel px py = s.pixel px py := by
  rw [Bool.eq_iff_iff, afterDraw_pixel_iff]
  simp [h]

/-- The collision flag of R152: a pixel that the sprite draws on was on. -/
theorem afterDraw_collision (s : State) (x y n : Nibble) : ∃ c : Bool, (s.afterDraw x y n).reg 15 = flagByte c ∧
    (c = true ↔ ∃ px py, drawsOn s x y n px py ∧ s.pixel px py = true) := by
  refine ⟨_, setReg_reg_self _ vf _, (drawSprite_hit ..).trans ?_⟩
  simp [drawsOn, State.pixel, and_assoc]

theorem afterDraw_vf_one (h : ∃ px py, drawsOn s x y n px py ∧ s.pixel px py = true) :
    (s.afterDraw x y n).reg 15 = 1 := by
  obtain ⟨c, hreg, hc⟩ := afterDraw_collision s x y n
  rw [hreg, hc.mpr h, flagByte, if_pos rfl]

theorem afterDraw_vf_zero (h : ∀ px py, drawsOn s x y n px py → s.pixel px py = false) :
    (s.afterDraw x y n).reg 15 = 0 := by
  obtain ⟨c, hreg, hc⟩ := afterDraw_collision s x y n
  have hnone : ¬c = true := by
    intro htrue
    obtain ⟨px, py, hd, hon⟩ := hc.mp htrue
    simp [h px py hd] at hon
  rw [hreg, flagByte, if_neg hnone]

theorem sameExcept_afterDraw : SameExcept [.screen, .regs] s (s.afterDraw x y n) :=
  (sameExcept_screen s _).append (sameExcept_setReg _ vf _)

theorem regsSameExcept_afterDraw : RegsSameExcept [15] s (s.afterDraw x y n) :=
  regsSameExcept_setReg { s with screen := _ } vf _

/-- A draw leaves `I`, memory and the screen size, so while the coordinate registers stand it leaves the sprite's place. -/
theorem drawsOn_afterDraw (hx : (s.afterDraw x y n).reg x = s.reg x) (hy : (s.afterDraw x y n).reg y = s.reg y) :
    drawsOn (s.afterDraw x y n) x y n px py ↔ drawsOn s x y n px py := by
  rw [drawsOn, hx, hy]
  exact Iff.rfl

end Draw

/-! ## The obligations -/

/-- Settles O46: the sprite's pixels and its collision are those of `drawsOn`, and a draw writes the screen and VF alone. -/
theorem drawFlipsCoveredPixels : Obligations.DrawFlipsCoveredPixels := by
  refine fun x y n => ⟨decode_encode (i := .draw x y n) rfl, fun s hfits => ?fits, fun s hn hpast => ?past⟩
  case fits =>
    exact ⟨_, exec_draw_fits hfits, fun _ _ => afterDraw_pixel_of_drawsOn, fun _ _ => afterDraw_pixel_of_not_drawsOn,
      afterDraw_vf_one, afterDraw_vf_zero, regsSameExcept_afterDraw, sameExcept_afterDraw⟩
  case past => exact ⟨_, exec_draw_past_end hn hpast, rfl, fun _ _ => rfl, rfl⟩

/-- Settles O47: the second draw flips the very pixels that the first one flipped, and collides where the first one turned
a pixel on. -/
theorem drawTwiceRestoresScreen : Obligations.DrawTwiceRestoresScreen := by
  intro x y n s t hfits hexec hx hy
  obtain rfl := Host.Outcome.next.inj ((exec_draw_fits hfits).symm.trans hexec)
  have hplace {px py : Nat} : drawsOn (s.afterDraw x y n) x y n px py ↔ drawsOn s x y n px py := drawsOn_afterDraw hx hy
  refine ⟨_, exec_draw_fits hfits, fun px py => ?restored, fun hoff => ⟨afterDraw_vf_zero hoff, ?drawn, ?blank⟩⟩
  case restored =>
    by_cases hd : drawsOn s x y n px py
    · rw [afterDraw_pixel_of_drawsOn (hplace.mpr hd), afterDraw_pixel_of_drawsOn hd, Bool.not_not]
    · rw [afterDraw_pixel_of_not_drawsOn (mt hplace.mp hd), afterDraw_pixel_of_not_drawsOn hd]
  case drawn =>
    rintro ⟨px, py, hd⟩
    refine afterDraw_vf_one ⟨px, py, hplace.mpr hd, ?_⟩
    rw [afterDraw_pixel_of_drawsOn hd, hoff px py hd, Bool.not_false]
  case blank => exact fun hnone => afterDraw_vf_zero fun px py hd => absurd (hplace.mp hd) (hnone px py)

/-- Settles O45: the empty list has no lit pixel, and the meaning writes the screen alone. -/
theorem clearScreenTurnsAllOff : Obligations.ClearScreenTurnsAllOff :=
  ⟨decode_encode (i := .clearScreen) rfl,
    fun s => ⟨_, rfl, fun _ _ => decide_eq_false List.not_mem_nil, sameExcept_screen s []⟩⟩

end Sys2Proof.Machine
end

section
/-! PROOFS. Timers, keys and random (45_timers_keys_random.md R160 to R164): the write of a free value to a register, the
two outcomes of the key wait, and that a wait undoes the fetch advance. -/

namespace Sys2Proof.Machine

/-! ## A register written with a free value (R163, R164) -/

section FreeValue
variable (s : State) (x : Nibble) (b : Byte)

theorem setReg_countDraw_reg_self : (s.setReg x b).countDraw.reg x = b := by
  rw [State.countDraw_reg, setReg_reg_self]

theorem regsSameExcept_setReg_countDraw : RegsSameExcept [x] s (s.setReg x b).countDraw := by
  intro r hr
  rw [State.countDraw_reg, setReg_reg_of_not_mem s b hr]

theorem sameExcept_setReg_countDraw : SameExcept [.regs, .draws] s (s.setReg x b).countDraw :=
  (sameExcept_setReg s x b).append (sameExcept_countDraw _)

end FreeValue

/-! ## The key wait (R163) -/

section KeyWait
variable {s : State}

theorem keyByte_toNat (k : Nibble) : (keyByte k).toNat = k.toNat :=
  BitVec.toNat_setWidth_of_le (by decide)

theorem exec_getKey_of_no_key (x : Nibble) (h : ∀ k, s.key k = false) :
    exec (.getKey x) s = .next (s.setPc (s.pc - 2)) := by
  obtain ⟨-, e⟩ | ⟨k, hk, -⟩ := execGetKey_cases x s
  · exact e
  · exact absurd hk (Bool.eq_false_iff.mp (h k))

theorem exec_getKey_of_key (x : Nibble) (h : ∃ k, s.key k = true) :
    ∃ k, s.key k = true ∧ exec (.getKey x) s = .next (s.setReg x (keyByte k)).countDraw := by
  obtain ⟨hnone, -⟩ | hpressed := execGetKey_cases x s
  · obtain ⟨k, hk⟩ := h
    exact absurd hk (Bool.eq_false_iff.mp (hnone k))
  · exact hpressed

end KeyWait

/-! ## The obligations -/

/-- Settles O48: each meaning is the one write, whose frame is that of its register or timer. -/
theorem timerMoves : Obligations.TimerMoves := by
  refine fun x => ⟨decode_encode (i := .getDelayTimer x) rfl, decode_encode (i := .setDelayTimer x) rfl,
    decode_encode (i := .setSoundTimer x) rfl, fun s => ⟨?get, ?delay, ?sound⟩⟩
  case get => exact ⟨_, rfl, setReg_reg_self s x s.dt, regsSameExcept_setReg s x s.dt, sameExcept_setReg s x s.dt⟩
  case delay => exact ⟨_, rfl, rfl, sameExcept_setDelay s _⟩
  case sound => exact ⟨_, rfl, rfl, sameExcept_setSound s _⟩

/-- Settles O49: a wait takes back the advance of the fetch before it, by `State.advance_back`; else the choice gives a
pressed key. -/
theorem getKeyWaitsForKey : Obligations.GetKeyWaitsForKey := by
  intro x
  have hdecode : decode (wordXNN 0xF x 0x0A) = .instr (.getKey x) := decode_encode (i := .getKey x) rfl
  refine ⟨hdecode, fun s hnone => ?wait, fun s hf hpc hword hnone => ?step, fun s hsome => ?pressed⟩
  case wait => exact ⟨_, exec_getKey_of_no_key x hnone, rfl, sameExcept_setPc s _⟩
  case step =>
    have hadvanced : ∀ k, s.advance.key k = false := hnone
    rw [step_of_fetched hf hpc, hword, execWord_of_instr hdecode, exec_getKey_of_no_key x hadvanced,
      State.advance_back]
  case pressed =>
    obtain ⟨k, hk, hexec⟩ := exec_getKey_of_key x hsome
    have hreg : ((s.setReg x (keyByte k)).countDraw.reg x).toNat = k.toNat := by
      rw [setReg_countDraw_reg_self, keyByte_toNat]
    exact ⟨_, hexec, ⟨k, hk, hreg⟩, regsSameExcept_setReg_countDraw s x _, sameExcept_setReg_countDraw s x _⟩

/-- Settles O50: the byte written is the free one under the mask, whatever that byte is. -/
theorem randomMasksFreeByte : Obligations.RandomMasksFreeByte := by
  refine fun x nn => ⟨decode_encode (i := .random x nn) rfl, fun s => ?_⟩
  have hreg := setReg_countDraw_reg_self s x (Config.randomByte s.draws &&& nn)
  refine ⟨_, rfl, ⟨_, rfl, hreg⟩, fun b hb => ?masked, rfl, regsSameExcept_setReg_countDraw s x _,
    sameExcept_setReg_countDraw s x _⟩
  case masked => rw [hreg, BitVec.getLsbD_and, hb, Bool.and_false]

end Sys2Proof.Machine
end

section
/-! PROOFS. Exceptions and host events (60_exceptions.md): which fault each instruction raises and why (R170 to R174), the
step at an unsupported word (R173), and the key events (R183). -/

namespace Sys2Proof.Machine

/-! ## The faults of the instructions (R170 to R172, R174) -/

/-- From `s`, the instruction raises the fault: its cause, with the payload. Only these eight instructions fault. -/
inductive Raises (s : State) : Instr → Fault → Prop where
  | stackUnderflow : s.stack = [] → Raises s .subroutineReturn .stackUnderflow
  | stackOverflow (nnn : Addr12) : stackCap ≤ s.stack.length → Raises s (.subroutineCall nnn) .stackOverflow
  | keyPressed (x : Nibble) : 15 < (s.reg x).toNat → Raises s (.skipIfKeyPressed x) (.invalidKey (s.reg x))
  | keyReleased (x : Nibble) : 15 < (s.reg x).toNat → Raises s (.skipIfKeyReleased x) (.invalidKey (s.reg x))
  | draw (x y n : Nibble) : ¬(n.toNat = 0 ∨ s.i.toNat + n.toNat ≤ memSize) →
      Raises s (.draw x y n) (.invalidMemoryAddress (max s.i.toNat memSize))
  | decimalConversion (x : Nibble) : memSize < s.i.toNat + 3 →
      Raises s (.decimalConversion x) (.invalidMemoryAddress (max s.i.toNat memSize))
  | storeRegisters (x : Nibble) : memSize < s.i.toNat + (x.toNat + 1) →
      Raises s (.storeRegisters x) (.invalidMemoryAddress (max s.i.toNat memSize))
  | loadRegisters (x : Nibble) : memSize < s.i.toNat + (x.toNat + 1) →
      Raises s (.loadRegisters x) (.invalidMemoryAddress (max s.i.toNat memSize))

section Faults
variable {s t : State} {f : Fault} {x : Nibble}

@[simp] theorem State.advanceIndex_faultStatus (s : State) (x : Nibble) :
    (s.advanceIndex x).faultStatus = s.faultStatus := by
  rw [State.advanceIndex_eq, State.setIndex_faultStatus]

theorem skipIfKey_fault {pressed : Bool} (hs : s.faultStatus = none) (h : s.skipIfKey x pressed = .next t)
    (hf : t.faultStatus = some f) : 15 < (s.reg x).toNat ∧ f = .invalidKey (s.reg x) := by
  rcases s.skipIfKey_cases x pressed with ⟨k, -, e⟩ | ⟨hgt, e⟩ <;> obtain rfl := Host.Outcome.next.inj (e.symm.trans h)
  · cases hs.symm.trans hf
  · exact ⟨hgt, (Option.some.inj hf).symm⟩

/-- A fault recorded by an instruction is one that the instruction raises. -/
theorem exec_raises {i : Instr} (hs : s.faultStatus = none) (h : exec i s = .next t) (hf : t.faultStatus = some f) :
    Raises s i f := by
  cases i with
  | subroutineReturn =>
    rcases execSubroutineReturn_cases s with ⟨hnil, e⟩ | ⟨w, ws, -, e⟩ <;>
      obtain rfl := Host.Outcome.next.inj (e.symm.trans h)
    · exact Option.some.inj hf ▸ .stackUnderflow hnil
    · cases hs.symm.trans hf
  | subroutineCall nnn =>
    rcases execSubroutineCall_cases nnn s with ⟨-, e⟩ | ⟨hfull, e⟩ <;>
      obtain rfl := Host.Outcome.next.inj (e.symm.trans h)
    · cases hs.symm.trans hf
    · exact Option.some.inj hf ▸ .stackOverflow nnn hfull
  | skipIfKeyPressed x =>
    obtain ⟨hgt, rfl⟩ := skipIfKey_fault hs h hf
    exact .keyPressed x hgt
  | skipIfKeyReleased x =>
    obtain ⟨hgt, rfl⟩ := skipIfKey_fault hs h hf
    exact .keyReleased x hgt
  | draw x y n =>
    rcases execDraw_cases x y n s with ⟨-, e⟩ | ⟨hpast, e⟩ <;> obtain rfl := Host.Outcome.next.inj (e.symm.trans h)
    · cases hs.symm.trans hf
    · exact Option.some.inj hf ▸ .draw x y n hpast
  | decimalConversion x =>
    rcases execDecimalConversion_cases x s with ⟨m, e, -⟩ | ⟨m, hpast, e, -⟩ <;>
      obtain rfl := Host.Outcome.next.inj (e.symm.trans h)
    · cases hs.symm.trans hf
    · exact Option.some.inj hf ▸ .decimalConversion x hpast
  | storeRegisters x =>
    rcases execStoreRegisters_cases x s with ⟨m, e, -⟩ | ⟨m, hpast, e, -⟩ <;>
      obtain rfl := Host.Outcome.next.inj (e.symm.trans h)
    · rw [State.advanceIndex_faultStatus] at hf
      cases hs.symm.trans hf
    · exact Option.some.inj hf ▸ .storeRegisters x hpast
  | loadRegisters x =>
    rcases execLoadRegisters_cases x s with ⟨v, e, -⟩ | ⟨v, hpast, e, -⟩ <;>
      obtain rfl := Host.Outcome.next.inj (e.symm.trans h)
    · rw [State.advanceIndex_faultStatus] at hf
      cases hs.symm.trans hf
    · exact Option.some.inj hf ▸ .loadRegisters x hpast
  | _ =>
    -- The others do not write the fault status.
    have hkept : t.faultStatus = s.faultStatus := exec_frame h .fault (by simp [writes])
    cases hs.symm.trans (hkept.symm.trans hf)

end Faults

/-! ## The fault of an unsupported word (R173, R177) -/

/-- The frame of a word that faults when executed: the fetch advance stands, and the fault is recorded. -/
theorem sameExcept_advance_fault (s : State) (f : Option Fault) :
    SameExcept [.fault, .pc] s { s.advance with faultStatus := f } :=
  ((sameExcept_setPc s _).append (sameExcept_fault s.advance f)).mono (by decide)

/-! ## Key events (R183) -/

section Keys
variable (s : State) (k : Nibble) (b : Bool)

theorem sameExcept_setKey : SameExcept [.keys] s (s.setKey k b) := by
  intro p hp
  cases p <;> simp_all [Part.Same]

theorem setKey_sets_one_bit : (s.setKey k b).key k = b ∧ (∀ j, j ≠ k → (s.setKey k b).key j = s.key j) ∧
    SameExcept [.keys] s (s.setKey k b) := by
  refine ⟨?self, fun j hj => ?other, sameExcept_setKey s k b⟩
  case self => rw [State.key_setKey, if_pos rfl]
  case other => rw [State.key_setKey, if_neg hj]

end Keys

/-! ## The obligations -/

/-- Settles O22, from the cause that `exec_raises` gives; the address reported is at least 4096. -/
theorem faultCauses : Obligations.FaultCauses := by
  intro i s t f hs h hf
  have haddr : 4095 < max s.i.toNat memSize := le_max_right s.i.toNat memSize
  cases exec_raises hs h hf with
  | stackUnderflow hnil => exact ⟨hnil, rfl⟩
  | stackOverflow nnn hfull => exact ⟨hfull, nnn, rfl⟩
  | keyPressed x hgt => exact ⟨hgt, x, rfl, .inl rfl⟩
  | keyReleased x hgt => exact ⟨hgt, x, rfl, .inr rfl⟩
  | draw x y n _ => exact ⟨haddr, .inl ⟨x, y, n, rfl⟩⟩
  | decimalConversion x _ => exact ⟨haddr, .inr (.inl ⟨x, rfl⟩)⟩
  | storeRegisters x _ => exact ⟨haddr, .inr (.inr (.inl ⟨x, rfl⟩))⟩
  | loadRegisters x _ => exact ⟨haddr, .inr (.inr (.inr ⟨x, rfl⟩))⟩

/-- Settles O8: the word is fetched, `pc` advances, and the execution records the fault alone. -/
theorem unsupportedWordFaultsWhenExecuted : Obligations.UnsupportedWordFaultsWhenExecuted := by
  intro s hf hpc hword
  exact ⟨_, (step_of_fetched hf hpc).trans (execWord_of_not_instr hword s.advance), rfl, rfl,
    sameExcept_advance_fault s _⟩

/-- Settles O52: each event is the one update of a key. -/
theorem keyEventsSetOneBit : Obligations.KeyEventsSetOneBit :=
  fun k s => ⟨⟨_, rfl, setKey_sets_one_bit s k true⟩, ⟨_, rfl, setKey_sets_one_bit s k false⟩⟩

end Sys2Proof.Machine
end

section
/-! PROOFS. What an instruction that faults has changed (60_exceptions.md R177): every write before the faulting access and
nothing else. -/

namespace Sys2Proof.Machine

/-! ## The state a fault leaves -/

/-- The bytes that an instruction stores from `I` up (43_index_memory.md R143, R144). -/
def storedBytes (s : State) : Instr → List Byte
  | .decimalConversion x => decimalDigits (s.reg x)
  | .storeRegisters x => (registersUpTo x).map s.reg
  | _ => []

/-- All that an instruction has done when it faults: it has recorded the fault, and has stored or loaded the part of its
block that lies in memory. -/
inductive LeftByFault (s : State) : Instr → State → Prop where
  | recorded {i : Instr} (f : Fault) : storedBytes s i = [] → (∀ x, i ≠ .loadRegisters x) →
      LeftByFault s i { s with faultStatus := some f }
  | stored {i : Instr} (f : Fault) (m : Memory) : storedBytes s i ≠ [] →
      (∀ b, ({ s with mem := m } : State).peek b =
        if s.i.toNat ≤ b ∧ b < memSize then (storedBytes s i).getD (b - s.i.toNat) 0 else s.peek b) →
      LeftByFault s i { s with mem := m, faultStatus := some f }
  | loaded (x : Nibble) (f : Fault) (v : Vector Byte 16) :
      (∀ r : Nibble, ({ s with v := v } : State).reg r =
        if r.toNat ≤ x.toNat ∧ s.i.toNat + r.toNat < memSize then s.peek (s.i.toNat + r.toNat) else s.reg r) →
      LeftByFault s (.loadRegisters x) { s with v := v, faultStatus := some f }

section LeftByFault
variable {s t : State} {i : Instr} {x : Nibble}

theorem storedBytes_decimalConversion_ne_nil : storedBytes s (.decimalConversion x) ≠ [] := List.cons_ne_nil _ _

theorem storedBytes_storeRegisters_ne_nil : storedBytes s (.storeRegisters x) ≠ [] := by
  simp [storedBytes, registersUpTo]

/-- The cause of the fault says which branch of its meaning the instruction took. -/
theorem exec_leftByFault (hs : s.faultStatus = none) (h : exec i s = .next t) (hf : t.faultStatus ≠ none) :
    LeftByFault s i t := by
  obtain ⟨f, hf⟩ := Option.ne_none_iff_exists'.mp hf
  cases exec_raises hs h hf with
  | stackUnderflow hnil =>
    obtain rfl := Host.Outcome.next.inj ((exec_subroutineReturn_of_nil hnil).symm.trans h)
    exact .recorded _ rfl nofun
  | stackOverflow nnn hfull =>
    obtain rfl := Host.Outcome.next.inj ((exec_subroutineCall_of_full nnn hfull).symm.trans h)
    exact .recorded _ rfl nofun
  | keyPressed x hgt | keyReleased x hgt =>
    obtain rfl := Host.Outcome.next.inj ((skipIfKey_of_invalid hgt _).symm.trans h)
    exact .recorded _ rfl nofun
  | draw x y n hpast =>
    obtain ⟨hfits, -⟩ | ⟨-, e⟩ := execDraw_cases x y n s
    · exact absurd hfits hpast
    · obtain rfl := Host.Outcome.next.inj (e.symm.trans h)
      exact .recorded _ rfl nofun
  | decimalConversion x _ =>
    obtain ⟨m, e, -⟩ | ⟨m, -, e, -, hpeek⟩ := execDecimalConversion_cases x s <;>
      obtain rfl := Host.Outcome.next.inj (e.symm.trans h)
    · cases hs.symm.trans hf
    · exact .stored _ m storedBytes_decimalConversion_ne_nil hpeek
  | storeRegisters x _ =>
    obtain ⟨m, e, -⟩ | ⟨m, -, e, -, hpeek⟩ := execStoreRegisters_cases x s <;>
      obtain rfl := Host.Outcome.next.inj (e.symm.trans h)
    · rw [State.advanceIndex_faultStatus] at hf
      cases hs.symm.trans hf
    · exact .stored _ m storedBytes_storeRegisters_ne_nil hpeek
  | loadRegisters x _ =>
    obtain ⟨v, e, -⟩ | ⟨v, -, e, hreg⟩ := execLoadRegisters_cases x s <;>
      obtain rfl := Host.Outcome.next.inj (e.symm.trans h)
    · rw [State.advanceIndex_faultStatus] at hf
      cases hs.symm.trans hf
    · exact .loaded x _ v hreg

/-! ## Its parts, one by one -/

theorem LeftByFault.frame (h : LeftByFault s i t) : SameExcept [.fault, .memory, .regs] s t := by
  cases h with
  | recorded f => exact (sameExcept_fault s _).mono (by decide)
  | stored f m => exact ((sameExcept_mem s m).append (sameExcept_fault _ _)).mono (by decide)
  | loaded x f v => exact ((sameExcept_regs s v).append (sameExcept_fault _ _)).mono (by decide)

theorem LeftByFault.reg_of_not_load (h : LeftByFault s i t) (hload : ∀ x, i ≠ .loadRegisters x) (r : Nibble) :
    t.reg r = s.reg r := by
  cases h with
  | recorded | stored => rfl
  | loaded x => exact absurd rfl (hload x)

theorem LeftByFault.reg_of_load (h : LeftByFault s (.loadRegisters x) t) (r : Nibble) : t.reg r =
    if r.toNat ≤ x.toNat ∧ s.i.toNat + r.toNat < memSize then s.peek (s.i.toNat + r.toNat) else s.reg r := by
  cases h with
  | recorded f _ hload => exact absurd rfl (hload x)
  | stored f m hne => exact absurd rfl hne
  | loaded x f v hreg => exact hreg r

theorem LeftByFault.memSameOutside (h : LeftByFault s i t) : MemSameOutside s.i.toNat (4096 - s.i.toNat) s t := by
  intro b hb
  cases h with
  | recorded | loaded => rfl
  | stored f m _ hpeek => exact (hpeek b).trans (if_neg (by unfold memSize; omega))

/-- The element at `I + k` is stored where that address lies in memory. -/
theorem LeftByFault.peek_stored (h : LeftByFault s i t) (hne : storedBytes s i ≠ []) {k : Nat}
    (hk : s.i.toNat + k ≤ 4095) : t.peek (s.i.toNat + k) = (storedBytes s i).getD k 0 := by
  cases h with
  | recorded f hnil => exact absurd hnil hne
  | stored f m _ hpeek =>
    have hin : s.i.toNat ≤ s.i.toNat + k ∧ s.i.toNat + k < memSize := ⟨Nat.le_add_right _ _, Nat.lt_succ_of_le hk⟩
    have hval := (hpeek (s.i.toNat + k)).trans (if_pos hin)
    rwa [Nat.add_sub_cancel_left] at hval
  | loaded => exact absurd rfl hne

end LeftByFault

/-! ## The obligation -/

/-- Settles O23, from the state that a fault leaves; that only the conversion and the store write memory is O15. -/
theorem faultPrecision : Obligations.FaultPrecision := by
  intro i s t hs h hf
  have hleft : LeftByFault s i t := exec_leftByFault hs h hf
  refine ⟨hleft.frame, hleft.reg_of_not_load, fun hconv hstore a => ?memory, hleft.memSameOutside, fun x hi => ?digits,
    fun x hi r hr hin => ?block, fun x hi r => ?loaded⟩
  case memory =>
    by_contra hne
    obtain ⟨x, hi⟩ | ⟨x, hi⟩ := (memoryAndScreenWriters i s t h).1 a hne
    · exact hconv x hi
    · exact hstore x hi
  case digits =>
    subst hi
    have hdigit (k : Nat) (hin : s.i.toNat + k ≤ 4095) : (t.peek (s.i.toNat + k)).toNat =
        [(s.reg x).toNat / 100, (s.reg x).toNat / 10 % 10, (s.reg x).toNat % 10].getD k 0 := by
      rw [hleft.peek_stored storedBytes_decimalConversion_ne_nil hin, storedBytes, decimalDigits_getD_toNat]
    exact ⟨hdigit 0, hdigit 1⟩
  case block =>
    subst hi
    exact (hleft.peek_stored storedBytes_storeRegisters_ne_nil hin).trans (s.blockByte x r hr)
  case loaded =>
    subst hi
    exact (hleft.reg_of_load r).trans (if_congr (and_congr_right' Nat.lt_succ_iff) rfl rfl)

end Sys2Proof.Machine
end

section
/-! PROOFS. Reset (70_reset_and_hazards.md R190, R191; 00_scope.md R7): when it is accepted, what the state it builds holds
at each address, and the model's reset state as one such state. -/

namespace Sys2Proof.Machine

/-! ## When `Reset` is accepted (00_scope.md R7, R191) -/

section Accept
variable {c : Config} {rom : List Byte}

theorem deliver_reset_of_wellFormed (hlen : rom.length ≤ romMax) (hwf : c.WellFormed rom.length) (s : State) :
    (Event.reset c rom).deliver s = .next (resetState c rom s.draws) := by
  simp only [Event.deliver, if_neg (Nat.not_lt.mpr hlen), if_pos hwf]

theorem deliver_reset_of_illFormed (h : ¬(rom.length ≤ romMax ∧ c.WellFormed rom.length)) (s : State) :
    ∃ r, (Event.reset c rom).deliver s = .refused r := by
  by_cases hlen : rom.length ≤ romMax
  · have hwf : ¬c.WellFormed rom.length := fun hwf => h ⟨hlen, hwf⟩
    exact ⟨.illFormedConfiguration, by simp only [Event.deliver, if_neg (Nat.not_lt.mpr hlen), if_neg hwf]⟩
  · exact ⟨.romTooLong, by simp only [Event.deliver, if_pos (Nat.not_le.mp hlen)]⟩

/-- The model compares the bounds of the font's and the ROM's regions; the spec says that no address is in both. -/
theorem wellFormed_iff_disjoint : c.WellFormed rom.length ↔ c.fontBase.toNat + 80 ≤ 4096 ∧
    (∀ a : Nat, ¬((c.fontBase.toNat ≤ a ∧ a < c.fontBase.toNat + 80) ∧ (0x200 ≤ a ∧ a < 0x200 + rom.length))) ∧
    1 ≤ c.screenW ∧ 1 ≤ c.screenH := by
  refine and_congr_right' (and_congr_left' ⟨fun hbounds a => ?disjoint, fun hdisjoint => ?bounds⟩)
  case disjoint =>
    unfold progBase at hbounds
    omega
  case bounds =>
    -- Were both regions to meet, they would meet where the later one begins.
    have hstart := hdisjoint (max c.fontBase.toNat 0x200)
    unfold progBase
    omega

end Accept

/-! ## The state built (10_state.md R41) -/

section Built
variable {c : Config} {rom : List Byte} (draws : Nat)

theorem resetState_peek (hlen : rom.length ≤ romMax) (a : Nat) : (resetState c rom draws).peek a =
    if 0x200 ≤ a ∧ a < 0x200 + rom.length then rom.getD (a - 0x200) 0 else resetByte c a := by
  have hrom : progBase + rom.length ≤ memSize := Nat.add_le_add_left hlen progBase
  exact (loadBytes_spec c [] progBase rom hrom).2 a

theorem resetByte_font (c : Config) (j : Fin 80) : resetByte c (c.fontBase.toNat + j.val) = c.fontTable[j.val] := by
  have hin : c.fontBase.toNat ≤ c.fontBase.toNat + j.val ∧ c.fontBase.toNat + j.val < c.fontBase.toNat + 80 := by omega
  simp only [resetByte, dif_pos hin, Nat.add_sub_cancel_left]

theorem resetByte_outside {a : Nat} (h : a < c.fontBase.toNat ∨ c.fontBase.toNat + 80 ≤ a) : resetByte c a = 0 :=
  dif_neg (by omega)

theorem resetState_peek_rom (hlen : rom.length ≤ romMax) {j : Nat} (hj : j < rom.length) :
    (resetState c rom draws).peek (0x200 + j) = rom.getD j 0 := by
  rw [resetState_peek draws hlen, if_pos (by omega), Nat.add_sub_cancel_left]

/-- The ROM does not reach into the font's region, which reads as the table. -/
theorem resetState_peek_font (hlen : rom.length ≤ romMax) (hwf : c.WellFormed rom.length) (j : Fin 80) :
    (resetState c rom draws).peek (c.fontBase.toNat + j.val) = c.fontTable[j.val] := by
  obtain ⟨-, hdisjoint, -⟩ := wellFormed_iff_disjoint.mp hwf
  have hnot := hdisjoint (c.fontBase.toNat + j.val)
  rw [resetState_peek draws hlen, if_neg (by omega), resetByte_font]

theorem resetState_peek_rest (hlen : rom.length ≤ romMax) {a : Nat}
    (hfont : a < c.fontBase.toNat ∨ c.fontBase.toNat + 80 ≤ a) (hrom : a < 0x200 ∨ 0x200 + rom.length ≤ a) :
    (resetState c rom draws).peek a = 0 := by
  rw [resetState_peek draws hlen, if_neg (by omega), resetByte_outside hfont]

end Built

theorem reset_reg (r : Nibble) : State.reset.reg r = 0 := Vector.getElem_replicate r.isLt

theorem reset_key (k : Nibble) : State.reset.key k = false := Vector.getElem_replicate k.isLt

/-- The model's reset state is the one built from the default configuration and no ROM. -/
theorem reset_eq_resetState : State.reset = resetState Config.default [] 0 := rfl

theorem sameExcept_draws (s : State) (n : Nat) : SameExcept [.draws] s { s with draws := n } := by
  intro p hp
  cases p with
  | draws => exact absurd List.mem_cons_self hp
  | _ => simp [Part.Same, State.reg, State.peek, State.pixel, State.key]

/-! ## The obligations -/

/-- Settles O53: the font, the ROM and the rest are disjoint ranges, and the other parts are those of `State.reset`. -/
theorem resetBuildsStartState : Obligations.ResetBuildsStartState := by
  intro c rom s hwf hlen
  exact ⟨_, deliver_reset_of_wellFormed hlen hwf s, reset_reg, rfl, rfl, rfl, rfl, rfl,
    resetState_peek_font s.draws hlen hwf, fun _ hj => resetState_peek_rom s.draws hlen hj,
    fun _ hfont hrom => resetState_peek_rest s.draws hlen hfont hrom, fun _ _ => decide_eq_false List.not_mem_nil,
    reset_key, rfl, rfl⟩

/-- Settles O54: the conditions the event tests are those of 00_scope.md R7 and R191, by `wellFormed_iff_disjoint`. -/
theorem resetRefusesIllFormed : Obligations.ResetRefusesIllFormed := by
  intro c rom s accepted
  have haccepted : accepted ↔ rom.length ≤ romMax ∧ c.WellFormed rom.length := by
    rw [wellFormed_iff_disjoint]
    simp only [accepted, romMax]
    tauto
  refine ⟨fun h => ?accepts, fun h => deliver_reset_of_illFormed (mt haccepted.mpr h) s⟩
  case accepts =>
    obtain ⟨hlen, hwf⟩ := haccepted.mp h
    exact ⟨_, deliver_reset_of_wellFormed hlen hwf s⟩

/-- Settles O11: the reset state is one that `Reset` builds. -/
theorem resetMeetsInvariant : Obligations.ResetMeetsInvariant := by
  unfold Obligations.ResetMeetsInvariant
  rw [reset_eq_resetState]
  exact resetState_inv Config.default [] 0 (Nat.zero_le romMax)

/-- Settles O55: the reset state is the one that `Reset` builds with the default configuration and no ROM, but for the count
of draws, which goes on. -/
theorem resetStateValues : Obligations.ResetStateValues := by
  have hlen : ([] : List Byte).length ≤ romMax := Nat.zero_le romMax
  refine ⟨reset_reg, rfl, rfl, rfl, rfl, rfl, rfl, reset_key, rfl, rfl, rfl, rfl, fun a hfont => ?blank, fun s => ?built⟩
  case blank =>
    rw [reset_eq_resetState]
    exact resetState_peek_rest 0 hlen hfont (Nat.lt_or_ge a 0x200)
  case built =>
    exact ⟨_, deliver_reset_of_wellFormed hlen (by decide) s, sameExcept_draws State.reset s.draws⟩

end Sys2Proof.Machine
end

section
/-! PROOFS. The no-op and the jump with offset (40_flow.md R100, R104), the addition to the index (43_index_memory.md R141),
and words written out from the opcode map (30_encoding.md R76). -/

namespace Sys2Proof.Machine

/-! ## The target of a jump with offset (R104) -/

/-- The largest sum is 0xFFF + 255, so nothing wraps. -/
theorem jumpOffsetTarget_toNat (nnn : Addr12) (b : Byte) : (jumpOffsetTarget nnn b).toNat = nnn.toNat + b.toNat := by
  rw [jumpOffsetTarget, BitVec.toNat_ofNat]
  omega

section Operand
variable {s : State} (x : Nibble)

theorem jumpOffsetOperand_cosmacVip (h : s.cfg.variant = .cosmacVip) : s.jumpOffsetOperand x = s.reg 0 := by
  simp only [State.jumpOffsetOperand, h]

theorem jumpOffsetOperand_chip48 (h : s.cfg.variant = .chip48) : s.jumpOffsetOperand x = s.reg x := by
  simp only [State.jumpOffsetOperand, h]

end Operand

/-! ## The addition to the index (R141) -/

/-- The state that `AddToIndex(x)` answers. -/
def State.afterAddToIndex (s : State) (x : Nibble) : State :=
  if indexCrossed s.i (addToWord s.i (s.reg x)) then (s.setIndex (addToWord s.i (s.reg x))).setFlag true
  else s.setIndex (addToWord s.i (s.reg x))

theorem indexCrossed_iff (old new : Word) : indexCrossed old new = true ↔ old.toNat ≤ 0xFFF ∧ 0xFFF < new.toNat :=
  decide_eq_true_iff

section AddToIndex
variable (s : State) (x : Nibble)

theorem exec_addToIndex : exec (.addToIndex x) s = .next (s.afterAddToIndex x) := rfl

theorem afterAddToIndex_i : (s.afterAddToIndex x).i = addToWord s.i (s.reg x) := by
  unfold State.afterAddToIndex
  split <;> rfl

/-- VF is written on the crossing alone. -/
theorem afterAddToIndex_vf : (s.afterAddToIndex x).reg 15 =
    if s.i.toNat ≤ 0xFFF ∧ (s.afterAddToIndex x).i.toNat > 0xFFF then 1 else s.reg 15 := by
  rw [afterAddToIndex_i]
  unfold State.afterAddToIndex
  split
  · next h => exact (setReg_reg_self _ vf _).trans (if_pos ((indexCrossed_iff ..).mp h)).symm
  · next h => exact (if_neg (mt (indexCrossed_iff ..).mpr h)).symm

end AddToIndex

/-! ## The obligations -/

/-- Settles O1: the decoder is run on each word. -/
theorem specWordsDecode : Obligations.SpecWordsDecode := by
  unfold Obligations.SpecWordsDecode
  decide

/-- Settles O24: a well-formed `System` decodes from its word, and leaves the state that the fetch advance made. -/
theorem systemOnlyAdvances : Obligations.SystemOnlyAdvances := by
  have hdecode (nnn : Addr12) (hcls : nnn ≠ 0x0E0) (hret : nnn ≠ 0x0EE) :
      decode (wordNNN 0x0 nnn) = .instr (.system nnn) :=
    decode_encode (i := .system nnn) ((system_wf_iff nnn).mpr ⟨hcls, hret⟩)
  refine ⟨hdecode, fun _ _ => rfl, fun nnn s hf hpc hcls hret hword => ?step⟩
  case step =>
    have hstep : step s = .next s.advance := by
      rw [step_of_fetched hf hpc, hword, execWord_of_instr (hdecode nnn hcls hret)]
      rfl
    exact ⟨_, hstep, rfl, sameExcept_setPc s _⟩

/-- Settles O28: the variant fixes the register added, and the sum fits in `pc`. -/
theorem jumpOffsetAddsRegister : Obligations.JumpOffsetAddsRegister := by
  refine ⟨fun nnn => decode_encode (i := .jumpOffset _ nnn) ((jumpOffset_wf_iff _ nnn).mpr rfl), fun x nnn s =>
    ⟨_, rfl, fun hvip => ?cosmacVip, fun h48 => ?chip48, sameExcept_setPc s _⟩⟩
  case cosmacVip => rw [State.setPc_pc, jumpOffsetTarget_toNat, jumpOffsetOperand_cosmacVip x hvip]
  case chip48 => rw [State.setPc_pc, jumpOffsetTarget_toNat, jumpOffsetOperand_chip48 x h48]

/-- Settles O39: both branches of the meaning set `I`, and the one on the crossing writes VF. -/
theorem addToIndexSetsVfOnCrossing : Obligations.AddToIndexSetsVfOnCrossing := by
  refine fun x => ⟨decode_encode (i := .addToIndex x) rfl, fun s =>
    ⟨_, exec_addToIndex s x, ?sum, afterAddToIndex_vf s x, fun r hr => ?other, execAddToIndex_frame rfl⟩⟩
  case sum =>
    rw [afterAddToIndex_i]
    exact BitVec.toNat_ofNat _ 16
  case other => exact execAddToIndex_reg (exec_addToIndex s x) (mt List.mem_singleton.mpr hr)

end Sys2Proof.Machine
end

section
/-! PROOFS. The timers' tick (60_exceptions.md R181) and the settled machine (70_reset_and_hazards.md R196). -/

namespace Sys2Proof.Machine

/-! ## A tick (R181) -/

theorem tickTimer_toNat (b : Byte) : (tickTimer b).toNat = b.toNat - 1 := by
  unfold tickTimer
  split <;> bv_omega

theorem sameExcept_tick (s : State) : SameExcept [.delay, .sound] s s.tick :=
  (sameExcept_setDelay s _).append (sameExcept_setSound _ _)

/-! ## The settled machine (R196, the spec's decision D19) -/

/-- The jump sets `pc` back to the address that the fetch advanced it from. -/
theorem step_of_settled {s : State} {a : Addr12} (ha : a.toNat < 4095) (h : s.SettledAt a) : step s = .next s := by
  obtain ⟨hpc, hf, hword⟩ := h
  have hpc_nat : s.pc.toNat = a.toNat := by rw [hpc, immediateWord_toNat]
  have hin : s.pc.toNat + 1 < memSize := by
    rw [hpc_nat]
    exact Nat.succ_lt_succ ha
  have hdecode : decode (encode (.jump a)) = .instr (.jump a) := decode_encode rfl
  calc step s = execWord (s.wordAt s.pc.toNat) s.advance := step_of_fetched hf hin
    _ = exec (.jump a) s.advance := by rw [hpc_nat, hword, execWord_of_instr hdecode]
    _ = .next (s.setPc s.pc) := by rw [hpc]; rfl
    _ = .next s := by rw [State.setPc_self]

/-! ## The obligations -/

/-- Settles O51: each timer is written once, with its value lowered. -/
theorem tickCountsBothTimersDown : Obligations.TickCountsBothTimersDown :=
  fun s => ⟨s.tick, rfl, tickTimer_toNat s.dt, tickTimer_toNat s.st, sameExcept_tick s⟩

/-- Settles O56: a step answers the settled state itself, and the other host events write a timer or a key. -/
theorem settledMachineStays : Obligations.SettledMachineStays := by
  intro s a ha hsettled
  have hstep : step s = .next s := step_of_settled ha hsettled
  refine ⟨hstep, fun e t hne h => ?event⟩
  case event =>
    cases e with
    | reset c rom => exact absurd rfl (hne c rom)
    | step => exact Host.Outcome.next.inj (hstep.symm.trans h) ▸ hsettled
    | tick | keyDown | keyUp =>
      obtain rfl := Host.Outcome.next.inj h
      exact hsettled

end Sys2Proof.Machine
end
